-- ==== Sys2Proof/Word.lean ====
section
/-!
DEFINITION. The words and small records the CORE's values are made of: command words and bytes
(spec 30_encoding.md R70, 20_memory.md R54, R55), the point and the sample (00_scope.md R16,
20_memory.md R51) and the answers the Device Session can give (60_exceptions.md R210).
-/

namespace Sys2Proof

/-- A 32-bit command word, and every `u32` register (R9, R70). -/
abbrev Word := BitVec 32

/-- One byte of a serialized word or sample (R54, R55). -/
abbrev Byte := BitVec 8

/-- The wire form of a sample: a word of so many bits, 48 on this hardware (R53). -/
structure WireSample where
  width : Nat
  word : BitVec width
  deriving DecidableEq, Repr

/-- A point with exact rational coordinates (R16, decision D4). -/
structure Point where
  x : Rat
  y : Rat
  deriving DecidableEq, Repr

/-- A sample, one frame-buffer entry: device coordinates and beam power (R16, R51). A coordinate is an integer
0..MAX_COORD whose field is as wide as MAX_COORD asks (R8); the power is a `u8` whatever FULL_POWER is (R51, R52). -/
structure Sample where
  x : Nat
  y : Nat
  p : BitVec 8
  deriving DecidableEq, Repr, Inhabited

/-- `getStatus`'s answer (R107, R210). -/
inductive DevStatus where
  | ready
  | busy
  deriving DecidableEq, Repr, Inhabited

/-- `writeFrame`'s answer (R108, R210). -/
inductive WriteResult where
  | success
  | failure
  deriving DecidableEq, Repr, Inhabited

/-- An answer of the informational queries `getName`, `getIsUsb` and `getFirmwareVersion` (R185). Its form is
the Device Session's and no rule reads it (93_implementation_defined.md I21), so it is any byte string, or the
failure value a failed query yields. DESIGN CHOICE (log entry 6), safe: nothing depends on the payload. -/
inductive InfoAnswer where
  | value (bytes : List Byte)
  | failed
  deriving DecidableEq, Repr, Inhabited

end Sys2Proof
end

