-- ==== Sys2Proof/Syntax.lean ====
section
/-!
DEFINITION. The CORE's five commands (30_encoding.md R73, opcode_table.json): one constructor per row, with
operands as the values their words stand for (R77, R78, R79; DESIGN CHOICE, log entry 11, safe).
-/

namespace Sys2Proof

/-- One command of the command interface, revision 1. -/
inductive Instr where
  /-- `INIT w, h`: logical width and height (R180). -/
  | init (w h : Rat)
  /-- `SETON i`: the intensity (R135). -/
  | seton (i : BitVec 8)
  /-- `SETPOS x, y`: a target in device units (R136). -/
  | setpos (x y : Rat)
  /-- `LINE x0, y0, x1, y1, c`: endpoints in logical units and a colour (R160). -/
  | line (x0 y0 x1 y1 : Rat) (c : BitVec 8)
  /-- `EMIT` (R106). -/
  | emit
  deriving DecidableEq, Repr

end Sys2Proof
end

