-- ==== Sys2Proof/WellFormed.lean ====
section
/-!
DEFINITION. Which commands the encoding can carry: every operand an exact multiple of 2^-16 in its word's
range (30_encoding.md R72, R83). A number that fails this is refused and never rounded (R83).
-/

namespace Sys2Proof

/-- An exact multiple of 2^-16 (R83). -/
def onGrid (x : Rat) : Bool := (x * 65536).den == 1

/-- A value a coordinate word C can hold: -32768 to 32768 - 2^-16 (R72). -/
def coordOk (x : Rat) : Bool := onGrid x && decide (-32768 ≤ x) && decide (x < 32768)

/-- A value a dimension word D can hold: 0 to 65536 - 2^-16 (R72). -/
def dimOk (x : Rat) : Bool := onGrid x && decide (0 ≤ x) && decide (x < 65536)

/-- The command has an encoding. -/
def Instr.WellFormed : Instr → Bool
  | .init w h => dimOk w && dimOk h
  | .seton _ => true
  | .setpos x y => coordOk x && coordOk y
  | .line x0 y0 x1 y1 _ => coordOk x0 && coordOk y0 && coordOk x1 && coordOk y1
  | .emit => true

end Sys2Proof
end

