-- ==== Sys2Proof/Decode.lean ====
section
/-!
DEFINITION. The decoder, total on any words and any bytes, rejecting by name, and after it the encoder
(30_encoding.md R70 to R82; byte order 20_memory.md R55).
-/

namespace Sys2Proof

/-- Why a sequence of words gives no command. -/
inductive DecodeError where
  /-- Fewer words than the header's opcode asks for (R75): the command is still pending. -/
  | incomplete
  /-- OPC is 0x00 or 0x06..0xFF (R80 item 1). -/
  | reservedOpcode
  /-- RSV is not 0, or IMM8 is not 0 where it must be (R80 item 2). -/
  | reservedFields
  deriving DecidableEq, Repr

/-! ### Header fields (R71) -/

/-- OPC, bits [7:0]. -/
def opc (h : Word) : BitVec 8 := h.extractLsb' 0 8

/-- IMM8, bits [15:8], read as `zext_8` (R77). -/
def imm8 (h : Word) : BitVec 8 := h.extractLsb' 8 8

/-- RSV, bits [31:16]. -/
def rsv (h : Word) : BitVec 16 := h.extractLsb' 16 16

/-! ### Operand words (R15, R72, R78, R79) -/

/-- `q16(w) = sext_32(w) / 65536`, signed Q16.16. -/
def q16 (w : Word) : Rat := (w.toInt : Rat) / 65536

/-- `uq16(w) = zext_32(w) / 65536`, unsigned Q16.16. -/
def uq16 (w : Word) : Rat := (w.toNat : Rat) / 65536

/-! ### The opcode map (R73, R74) -/

/-- One row of the opcode map: a header `h` selects it when `h &&& mask = pattern`. -/
structure OpcodeRow where
  mnemonic : String
  opcode : BitVec 8
  length : Nat
  pattern : Word
  mask : Word
  deriving DecidableEq, Repr

/-- The opcode map, R73's table row by row. -/
def opcodeTable : List OpcodeRow :=
  [ ⟨"INIT", 0x01, 3, 0x00000001, 0xFFFFFFFF⟩,
    ⟨"SETON", 0x02, 1, 0x00000002, 0xFFFF00FF⟩,
    ⟨"SETPOS", 0x03, 3, 0x00000003, 0xFFFFFFFF⟩,
    ⟨"LINE", 0x04, 5, 0x00000004, 0xFFFF00FF⟩,
    ⟨"EMIT", 0x05, 1, 0x00000005, 0xFFFFFFFF⟩ ]

/-- The header word selects this row (R73). -/
def OpcodeRow.selects (r : OpcodeRow) (h : Word) : Bool := h &&& r.mask == r.pattern

/-- `len(OPC)`: the command's length in words, from OPC alone (R74). -/
def cmdLen (o : BitVec 8) : Nat :=
  if o = 0x01 then 3
  else if o = 0x02 then 1
  else if o = 0x03 then 3
  else if o = 0x04 then 5
  else if o = 0x05 then 1
  else 1

/-- OPC is one of 0x01..0x05 (R80). -/
def opcDefined (o : BitVec 8) : Bool :=
  o == 0x01 || o == 0x02 || o == 0x03 || o == 0x04 || o == 0x05

/-- The commands whose IMM8 must be 0: INIT, SETPOS and EMIT (R71, R80). -/
def imm8MustBeZero (o : BitVec 8) : Bool := o == 0x01 || o == 0x03 || o == 0x05

/-! ### Decoding -/

/-- A legal header's command from its operand words (R73). -/
def decodeOperands (h : Word) (ops : List Word) : Except DecodeError Instr :=
  match (opc h).toNat, ops with
  | 1, [w, v] => .ok (.init (uq16 w) (uq16 v))
  | 2, [] => .ok (.seton (imm8 h))
  | 3, [x, y] => .ok (.setpos (q16 x) (q16 y))
  | 4, [x0, y0, x1, y1] => .ok (.line (q16 x0) (q16 y0) (q16 x1) (q16 y1) (imm8 h))
  | 5, [] => .ok .emit
  | _, _ => .error .incomplete

/-- The checks of R80's `execute(words)` on one whole command, in their order, then its operands. -/
def decodeCommand : List Word → Except DecodeError Instr
  | [] => .error .incomplete
  | h :: ops =>
    if opcDefined (opc h) = false then .error .reservedOpcode
    else if rsv h ≠ 0 then .error .reservedFields
    else if imm8MustBeZero (opc h) = true ∧ imm8 h ≠ 0 then .error .reservedFields
    else decodeOperands h ops

/-- Decode the first command of a word stream, giving the words after it. An illegal header is refused only
once all its command's words are there (R75, R80 item 2). -/
def decode : List Word → Except DecodeError (Instr × List Word)
  | [] => .error .incomplete
  | h :: ops =>
    if ops.length + 1 < cmdLen (opc h) then .error .incomplete
    else
      match decodeCommand ((h :: ops).take (cmdLen (opc h))) with
      | .ok i => .ok (i, (h :: ops).drop (cmdLen (opc h)))
      | .error e => .error e

/-! ### Byte transport (R55, R56) -/

/-- A command word as 4 bytes, least significant first (R55). -/
def bytesOfWord (w : Word) : List Byte :=
  [w.extractLsb' 0 8, w.extractLsb' 8 8, w.extractLsb' 16 8, w.extractLsb' 24 8]

/-- The words a byte transport delivers: 4 bytes a word, least significant first (R55). Bytes that end inside
a word deliver no word (R56). -/
def wordsOfBytes : List Byte → List Word
  | b0 :: b1 :: b2 :: b3 :: rest => (b3 ++ b2 ++ b1 ++ b0 : BitVec (8 + 8 + 8 + 8)) :: wordsOfBytes rest
  | _ => []

/-- Decode the first command carried by a byte stream. -/
def decodeBytes (bs : List Byte) : Except DecodeError (Instr × List Word) := decode (wordsOfBytes bs)

/-! ### The encoder -/

/-- The header word of R71: RSV = 0, IMM8 and OPC. -/
def header (o : BitVec 8) (imm : BitVec 8) : Word := (0#16 ++ imm ++ o : BitVec (16 + 8 + 8))

/-- The coordinate word with `q16(w)` equal to the number (R83). -/
def toQ16 (x : Rat) : Word := BitVec.ofInt 32 (x * 65536).floor

/-- The dimension word with `uq16(w)` equal to the number (R83). -/
def toUq16 (x : Rat) : Word := BitVec.ofNat 32 (x * 65536).floor.toNat

/-- The words of a well-formed command (R71 to R73). -/
def encode : Instr → List Word
  | .init w h => [header 0x01 0, toUq16 w, toUq16 h]
  | .seton i => [header 0x02 i]
  | .setpos x y => [header 0x03 0, toQ16 x, toQ16 y]
  | .line x0 y0 x1 y1 c => [header 0x04 c, toQ16 x0, toQ16 y0, toQ16 x1, toQ16 y1]
  | .emit => [header 0x05 0]

/-! ### An opcode-table row's bits as the hardware stores them -/

/-- The longest command, LINE, in bytes (R82). -/
def maxCmdBytes : Nat := 20

/-- The bytes of a number, least significant first. -/
def bytesOfNat : Nat → Nat → List Byte
  | 0, _ => []
  | n + 1, v => BitVec.ofNat 8 v :: bytesOfNat n (v / 256)

/-- The words of an instruction whose low `nbits` bits are `w`'s and whose further bits, up to the longest
command, are 0. Bit 0 is the least significant bit of the header word. -/
def tableWords (nbits w : Nat) : List Word := wordsOfBytes (bytesOfNat maxCmdBytes (w % 2 ^ nbits))

/-- The command the decoder reads from those words. -/
def decodeTableWord (nbits w : Nat) : Option Instr :=
  match decodeBytes (bytesOfNat maxCmdBytes (w % 2 ^ nbits)) with
  | .ok (i, _) => some i
  | .error _ => none

end Sys2Proof
end

