-- ==== Sys2Proof/Config.lean ====
section
/-!
DEFINITION. What is fixed for a machine and is not state (10_state.md R38): the named parameters of
00_scope.md R7 with this hardware's values, and the free values, which the spec leaves to the environment
(93_implementation_defined.md I2, I8, I21): opaque constants with no body, so that no proof can see a value.
-/

namespace Sys2Proof

/-- The implementation parameters (R7). Every operation of the machine takes them as an argument; `exec` and
`step` use this hardware's values, `Params.hw`. -/
structure Params where
  /-- FB_CAPACITY (N): sample entries in the frame buffer. -/
  fbCapacity : Nat
  /-- MAX_COORD: largest device coordinate. -/
  maxCoord : Nat
  /-- FULL_POWER: largest sample intensity. -/
  fullPower : Nat
  /-- CYCLES_TO_ON: dwell samples at a turn-on. -/
  cyclesToOn : Nat
  /-- CYCLES_TO_OFF: dwell samples at a turn-off. -/
  cyclesToOff : Nat
  /-- CYCLES_TO_STABLE_ON: settle samples after a move while ON. -/
  cyclesToStableOn : Nat
  /-- CYCLES_TO_STABLE_OFF: settle samples after a move while OFF. -/
  cyclesToStableOff : Nat
  /-- MAX_STEP_ON: largest move per sample, beam ON. -/
  maxStepOn : Nat
  /-- MAX_STEP_OFF: largest move per sample, beam OFF. -/
  maxStepOff : Nat
  /-- CONT_TOL: the rasterizer's continuity tolerance, inclusive. -/
  contTol : Nat
  /-- DEFAULT_SAMPLE_RATE: samples per second written by INIT. -/
  defaultSampleRate : Nat
  /-- DEVICE_INDEX: the device session index the CORE addresses. -/
  deviceIndex : Nat
  /-- RASTER_SETON_ALWAYS: whether the colour is applied on a continuous line. -/
  rasterSetonAlways : Bool
  deriving DecidableEq, Repr

/-- This hardware's values (R7's "value" column). -/
def Params.hw : Params where
  fbCapacity := 131072
  maxCoord := 4095
  fullPower := 255
  cyclesToOn := 4
  cyclesToOff := 4
  cyclesToStableOn := 2
  cyclesToStableOff := 1
  maxStepOn := 5
  maxStepOff := 10
  contTol := 1
  defaultSampleRate := 20000
  deviceIndex := 0
  rasterSetonAlways := true

/-- The constraints of R7: every parameter is positive, but DEVICE_INDEX and the Boolean. -/
abbrev Params.Wf (p : Params) : Prop :=
  0 < p.fbCapacity ∧ 0 < p.maxCoord ∧ 0 < p.fullPower ∧ 0 < p.cyclesToOn ∧ 0 < p.cyclesToOff ∧
  0 < p.cyclesToStableOn ∧ 0 < p.cyclesToStableOff ∧ 0 < p.maxStepOn ∧ 0 < p.maxStepOff ∧ 0 < p.contTol ∧
  0 < p.defaultSampleRate

namespace Config

/-- FREE VALUE: what `openDevices()` answers at the `n`-th Device Session call when the script of answers in
State holds none (R107's "a draw of the environment under no law", R210, I8). -/
opaque freeDeviceCount : Nat → Nat

/-- FREE VALUE: what `getName` answers at the `n`-th call (R185, I8, I21). -/
opaque freeName : Nat → InfoAnswer

/-- FREE VALUE: what `getIsUsb` answers at the `n`-th call (R185, I8, I21). -/
opaque freeIsUsb : Nat → InfoAnswer

/-- FREE VALUE: what `getFirmwareVersion` answers at the `n`-th call (R185, I8, I21). -/
opaque freeFirmware : Nat → InfoAnswer

/-- FREE VALUE: what `getStatus` answers at the `n`-th call (R107, I8). -/
opaque freeStatus : Nat → DevStatus

/-- FREE VALUE: what `writeFrame` answers at the `n`-th call (R108, I8). -/
opaque freeWriteResult : Nat → WriteResult

/-- FREE VALUE: what frame-buffer entry `i` holds before anything has been written to it (R59, R230, I2). -/
opaque freeFbEntry : Nat → Sample

end Config

end Sys2Proof
end

