-- ==== Sys2Proof/Machine/State.lean ====
section
/-!
DEFINITION. The CORE's state as plain data (10_state.md R21, every register of the table, PEND and FB), the
observable event trace (60_exceptions.md R212), the two interfaces' pending inputs (R210, R211), the reset state
(70_reset_and_hazards.md R230), and the reasons a step can stop.
-/

namespace Sys2Proof.Machine

open Sys2Proof

/-- Why the machine stops. The CORE itself has no trap and nothing in it is fatal (R208): its four error
conditions are recorded and it goes on (R202), so they are no faults here. -/
inductive Fault where
  /-- Raised by EMIT when FB_COUNT > FB_CAPACITY: the frame would be read outside the frame buffer's address
  space (R12 asks i + n ≤ FB_CAPACITY, R50). Safe: no state reached from reset is so (R37 item 1). -/
  | frameIndexOutOfRange
  /-- Raised by `step` when the host's words have run out inside a command: the pending command never executes
  and there is no step (R236, 93_implementation_defined.md I12 "stuck"). Safe: the run is not final. -/
  | streamEndsInsideCommand
  deriving DecidableEq, Repr

/-- Why an instruction has no meaning in the model. -/
inductive Refusal where
  /-- Raised by `exec`'s arm of an instruction that has no meaning yet. Safe. No arm raises it now. -/
  | notModelled (mnemonic : String)
  deriving DecidableEq, Repr

/-- What every meaning answers. -/
abbrev Result (σ : Type) := Host.Outcome σ Fault Refusal

/-- The error conditions of the command interface (R201, codes 1 to 4). -/
inductive ErrCond where
  | illegal
  | notInit
  | range
  | param
  deriving DecidableEq, Repr

/-- `writeFrame`'s flags (R108). -/
structure WriteFlags where
  singleMode : Bool
  dontBlock : Bool
  deriving DecidableEq, Repr

/-- One entry of the observable event trace (R212). -/
inductive Event where
  /-- CALL_OPEN(count): the drawn device count. -/
  | callOpen (count : Nat)
  /-- DIAG_INFO(name, isUsb, firmware): the drawn answers. -/
  | diagInfo (name isUsb firmware : InfoAnswer)
  /-- DIAG_NO_DEVICE. -/
  | diagNoDevice
  /-- CALL_STATUS(index, r). -/
  | callStatus (index : Nat) (r : DevStatus)
  /-- CALL_WRITE(index, rate, flags, samples, count, result), the samples in wire form (R108, R210). -/
  | callWrite (index : Nat) (rate : Word) (flags : WriteFlags) (samples : List WireSample) (count : Nat)
      (result : WriteResult)
  /-- WARN_OVERRUN(n): the lost-sample count. -/
  | warnOverrun (n : Word)
  /-- ERROR(code, cwp): the cause code and the header's CWP. -/
  | error (code : BitVec 8) (cwp : Word)
  deriving DecidableEq, Repr

/-- The frame buffer's contents: the entries written since reset with their values, indices strictly rising. An
entry that is not listed has never been written; what it holds is a free value (R59, R230). DESIGN CHOICE (log entry 8), safe. -/
abbrev Memory := List (Nat × Sample)

/-- The model's own: answers the environment has fixed for the Device Session calls still to come, oldest first,
one list for each function (R210). Where a list is empty the answer is a free value of Config. DESIGN CHOICE (log
entry 7): safe but for claims that compare two runs. -/
structure Script where
  opens : List Nat
  names : List InfoAnswer
  usbs : List InfoAnswer
  firmwares : List InfoAnswer
  statuses : List DevStatus
  writes : List WriteResult
  deriving DecidableEq, Repr

/-- No answer is fixed: every call's answer is a free value. -/
def Script.empty : Script := ⟨[], [], [], [], [], []⟩

/-- The machine's state. The first fifteen fields are R21's table, in its order; the last four are the
interfaces' (R210 to R212) and the model's own. -/
structure State where
  /-- 0x00 POS_X: beam position in device units, exact (R22, R23). -/
  posX : Rat
  /-- 0x01 POS_Y (R22, R23). -/
  posY : Rat
  /-- 0x02 INTENSITY, u8 (R24). -/
  intensity : BitVec 8
  /-- 0x03 SAMPLE_RATE, u32 (R26). -/
  sampleRate : Word
  /-- 0x04 SCALE: the ScaleFactor, exact (R27). -/
  scale : Rat
  /-- 0x05 INIT_DONE, u1 (R28). -/
  initDone : Bool
  /-- 0x06 DEV_COUNT, Nat (R29). -/
  devCount : Nat
  /-- 0x07 FB_COUNT, 0..FB_CAPACITY (R30). -/
  fbCount : Nat
  /-- 0x08 FB_OVERFLOW, u32, saturating (R31). -/
  fbOverflow : Word
  /-- 0x09 STATUS, u32, four sticky bits (R33). -/
  status : Word
  /-- 0x0A FIRST_ERR_CAUSE, u8 (R34). -/
  firstErrCause : BitVec 8
  /-- 0x0B FIRST_ERR_CWP, u32 (R34). -/
  firstErrCwp : Word
  /-- 0x0C CWP, u32, wraps (R32). -/
  cwp : Word
  /-- PEND: the words of a command that has arrived only in part (R35, R75). -/
  pend : List Word
  /-- FB: the frame buffer's entries, stale ones included (R50, R59, R110). -/
  fb : Memory
  /-- Host interface: words the host has sent and the CORE has not yet taken, oldest first (R211; DESIGN CHOICE, log
  entry 3, safe). -/
  input : List Word
  /-- The observable event trace, oldest first (R212; DEDUCED, log entry 9). -/
  trace : List Event
  /-- The model's own: fixed Device Session answers still to come (R210). -/
  script : Script
  /-- The model's own: how many Device Session answers have been given; the free values' index. -/
  drawn : Nat
  deriving DecidableEq, Repr

/-- The machine right after reset: R230, register by register. Reset emits no event and makes no Device Session
call. The frame buffer's entries are unspecified: none is listed. No host word has arrived. -/
def State.reset : State where
  posX := 0
  posY := 0
  intensity := 0
  sampleRate := 0
  scale := 0
  initDone := false
  devCount := 0
  fbCount := 0
  fbOverflow := 0
  status := 0
  firstErrCause := 0
  firstErrCwp := 0
  cwp := 0
  pend := []
  fb := []
  input := []
  trace := []
  script := Script.empty
  drawn := 0

end Sys2Proof.Machine
end

