-- ==== Sys2Proof/Machine/Operands.lean ====
section
/-!
DEFINITION. Operand forms and the CORE's arithmetic, pure functions of values: squared distance, the range and
continuity tests, scaling, the step count, the interpolation points, forming a sample and its wire form
(00_scope.md R15; 20_memory.md R52 to R54; 42_beam.md R131 to R133; 43_rasterizer.md R160 to R162;
44_init.md R181).
-/

namespace Sys2Proof.Machine

open Sys2Proof

/-- `dist2(p, q)`: the squared Euclidean distance, exact (R15). -/
def dist2 (a b : Point) : Rat := (a.x - b.x) ^ 2 + (a.y - b.y) ^ 2

/-- `inRange(p)`: both coordinates in 0..MAX_COORD, both bounds included (R136, R160). -/
def inRange (p : Params) (a : Point) : Bool :=
  decide (0 ≤ a.x) && decide (a.x ≤ p.maxCoord) && decide (0 ≤ a.y) && decide (a.y ≤ p.maxCoord)

/-- `near(a, b)`: within CONT_TOL in Euclidean distance, bound included (R161). -/
def near (p : Params) (a b : Point) : Bool := decide (dist2 a b ≤ (p.contTol : Rat) ^ 2)

/-- A logical point scaled to device coordinates: factor only, no offset, flip or rounding (R162). -/
def scalePoint (k : Rat) (a : Point) : Point := ⟨a.x * k, a.y * k⟩

/-- `SCALE = MAX_COORD / max(w, h)` (R181). -/
def scaleFactor (p : Params) (w h : Rat) : Rat := (p.maxCoord : Rat) / max w h

/-! ### Step count and interpolation -/

/-- The least `k` from `start` on, within `fuel` tries, that passes the test (`start + fuel` if none does). -/
def leastFrom (test : Nat → Bool) : Nat → Nat → Nat
  | 0, start => start
  | fuel + 1, start => if test start then start else leastFrom test fuel (start + 1)

/-- `steps(dx, dy, m)`: the least k with (k·m)² ≥ dx² + dy² (R131). For m > 0 the search ends by k = the numerator
of dx² + dy² in lowest terms, since k² m² ≥ k (DEDUCED, log entry 14, safe). -/
def steps (dx dy : Rat) (m : Nat) : Nat :=
  leastFrom (fun k => decide (dx ^ 2 + dy ^ 2 ≤ (((k * m) ^ 2 : Nat) : Rat))) (dx ^ 2 + dy ^ 2).num.toNat 0

/-- The k-th of the n points of a move from `a` to `t`: `P_k = a + (t - a)·k/n` (R133). -/
def pathPoint (a t : Point) (n k : Nat) : Point :=
  ⟨a.x + (t.x - a.x) * k / n, a.y + (t.y - a.y) * k / n⟩

/-! ### Derived widths (R8) -/

/-- `ceil(log2(n))`: the least k with n ≤ 2^k. -/
def ceilLog2 (n : Nat) : Nat := leastFrom (fun k => decide (n ≤ 2 ^ k)) n 0

/-- CW, the width of a sample's coordinate field: 12 on this hardware. -/
def coordWidth (p : Params) : Nat := ceilLog2 (p.maxCoord + 1)

/-- The width FB_COUNT needs: 18 on this hardware. -/
def countWidth (p : Params) : Nat := ceilLog2 (p.fbCapacity + 1)

/-- The width of a frame-buffer index 0..FB_CAPACITY-1: 17 on this hardware. -/
def indexWidth (p : Params) : Nat := ceilLog2 p.fbCapacity

/-! ### Samples -/

/-- A coordinate field: the floor, in CW bits (R8, R52). Callers give 0 ≤ q ≤ MAX_COORD, where it is the floor. -/
def coordField (p : Params) (q : Rat) : Nat := (q.floor % (2 ^ coordWidth p : Nat)).toNat

/-- `POWER(i) = floor(i · FULL_POWER / 255)` (R52). Its type is `u8`, so a value past 255, which needs a FULL_POWER
past 255, is taken modulo 2^8 (R9; DEDUCED, log entry 1). -/
def power (p : Params) (i : BitVec 8) : BitVec 8 := BitVec.ofNat 8 (i.toNat * p.fullPower / 255)

/-- `mkSample(x, y, i)`: floored coordinates and the power (R52). -/
def mkSample (p : Params) (a : Point) (i : BitVec 8) : Sample :=
  ⟨coordField p a.x, coordField p a.y, power p i⟩

/-- The wire form: X, Y, CH0 = power, CH1 and CH2 = 0, from bit 0 on; on this hardware X [11:0], Y [23:12], CH0
[31:24], CH1 [39:32], CH2 [47:40] (R53). The coordinate fields are CW bits wide at other parameters too (R8; DEDUCED,
log entry 1). -/
def wireOf (p : Params) (s : Sample) : WireSample :=
  ⟨8 + 8 + 8 + coordWidth p + coordWidth p,
    0#8 ++ 0#8 ++ s.p ++ BitVec.ofNat (coordWidth p) s.y ++ BitVec.ofNat (coordWidth p) s.x⟩

/-- A serialized sample: byte k holds bits [8k+7:8k] of the wire word; 6 bytes on this hardware (R54). -/
def wireBytes (w : WireSample) : List Byte :=
  (List.range ((w.width + 7) / 8)).map fun k => w.word.extractLsb' (8 * k) 8

end Sys2Proof.Machine
end

