-- ==== Sys2Proof/Machine/Flags.lean ====
section
/-!
DEFINITION. The CORE's one condition flag and the error conditions' codes and STATUS bits (10_state.md R24, R25,
R33; 60_exceptions.md R201).
-/

namespace Sys2Proof.Machine

open Sys2Proof

/-- The ON class of an intensity: i ≠ 0 (R24). -/
def lit (i : BitVec 8) : Bool := i != 0

/-- The ON/OFF predicate, the CORE's only condition flag: no register, but INTENSITY ≠ 0 (R24, R25). -/
def State.on (s : State) : Bool := lit s.intensity

/-- The cause code (R33, R201). -/
def ErrCond.code : ErrCond → BitVec 8
  | .illegal => 1
  | .notInit => 2
  | .range => 3
  | .param => 4

/-- The number of the STATUS bit (R33, R201). -/
def ErrCond.bit : ErrCond → Nat
  | .illegal => 0
  | .notInit => 1
  | .range => 2
  | .param => 3

/-- The STATUS word with that one bit set. -/
def ErrCond.mask (e : ErrCond) : Word := 1#32 <<< e.bit

/-- `maxStep`: the step bound of a move, from the beam state (R132). -/
def maxStep (p : Params) (on : Bool) : Nat := if on then p.maxStepOn else p.maxStepOff

/-- The settle dwell after a move (R134). -/
def settleCycles (p : Params) (on : Bool) : Nat := if on then p.cyclesToStableOn else p.cyclesToStableOff

/-- The dwell of an on/off transition to the class `on` (R130). -/
def switchCycles (p : Params) (on : Bool) : Nat := if on then p.cyclesToOn else p.cyclesToOff

end Sys2Proof.Machine
end

