-- ==== Sys2Proof/Machine/Ops.lean ====
section
/-!
DEFINITION. The named operations over the frame buffer, the event trace, the Device Session and the error
registers that the commands share: MemWrite and MemRead (00_scope.md R12), append (41_frame_buffer.md R100),
events and calls (R14; 60_exceptions.md R210, R212), and raising an error (R202), which is what taking an
exception is on this hardware. There is no return from one: nothing is entered (R208, R209).
-/

namespace Sys2Proof.Machine

open Sys2Proof

/-! ### The frame buffer as an addressable store (R12, R50) -/

/-- The canonical form: indices strictly rising, every one below the capacity. -/
abbrev Memory.wf (cap : Nat) (m : Memory) : Prop :=
  (m.map Prod.fst).Pairwise (· < ·) ∧ ∀ e ∈ m, e.1 < cap

/-- The entry's value if it has been written since reset. -/
def Memory.get? : Memory → Nat → Option Sample
  | [], _ => none
  | (j, t) :: m, i => if i = j then some t else Memory.get? m i

/-- The entry's value: an entry never written holds an unspecified one, a free value (R59, I2). -/
def Memory.read (m : Memory) (i : Nat) : Sample := (m.get? i).getD (Config.freeFbEntry i)

/-- `MemWrite(i, 1, s)`: one whole entry (R12, R57). -/
def Memory.write : Memory → Nat → Sample → Memory
  | [], i, s => [(i, s)]
  | (j, t) :: m, i, s =>
    if i < j then (i, s) :: (j, t) :: m
    else if i = j then (i, s) :: m
    else (j, t) :: Memory.write m i s

/-- `MemRead(i, n)`: entries i .. i+n-1 in order; none where i + n exceeds the capacity (R12). -/
def memRead (p : Params) (m : Memory) (i n : Nat) : Option (List Sample) :=
  if i + n ≤ p.fbCapacity then some ((List.range' i n).map m.read) else none

/-- `append(s)`: keep the sample at FB_COUNT, or, when the buffer is full, discard it and count the loss in the
saturating FB_OVERFLOW (R100, R101). -/
def append (p : Params) (smp : Sample) (s : State) : State :=
  if s.fbCount < p.fbCapacity then
    { s with fb := s.fb.write s.fbCount smp, fbCount := s.fbCount + 1 }
  else if s.fbOverflow < 0xFFFFFFFF then
    { s with fbOverflow := s.fbOverflow + 1 }
  else s

/-- Append samples one after another, the first first. -/
def appendAll (p : Params) (smps : List Sample) (s : State) : State :=
  smps.foldl (fun t smp => append p smp t) s

/-! ### Events and Device Session calls (R14, R210, R212) -/

/-- `emitEvent(e)`: append to the observable trace. -/
def emitEvent (e : Event) (s : State) : State := { s with trace := s.trace ++ [e] }

/-- The answer of the next `openDevices()`: scripted, or free. -/
def openAnswer (s : State) : Nat := s.script.opens.headD (Config.freeDeviceCount s.drawn)

/-- `DEV_COUNT <- Dev.openDevices()`, recorded as CALL_OPEN (R180, R210). -/
def callOpen (s : State) : State :=
  emitEvent (.callOpen (openAnswer s))
    { s with
      devCount := openAnswer s
      script := { s.script with opens := s.script.opens.tail }
      drawn := s.drawn + 1 }

/-- The answer of the next `getName`. -/
def nameAnswer (s : State) : InfoAnswer := s.script.names.headD (Config.freeName s.drawn)

/-- The answer of the next `getIsUsb`, called after `getName`. -/
def usbAnswer (s : State) : InfoAnswer := s.script.usbs.headD (Config.freeIsUsb (s.drawn + 1))

/-- The answer of the next `getFirmwareVersion`, called after the other two. -/
def firmwareAnswer (s : State) : InfoAnswer := s.script.firmwares.headD (Config.freeFirmware (s.drawn + 2))

/-- The three informational queries and the DIAG_INFO event that holds their answers (R180, R185); they leave no
event of their own (DEDUCED, log entry 9: unsafe for claims that count events). -/
def queryInfo (s : State) : State :=
  emitEvent (.diagInfo (nameAnswer s) (usbAnswer s) (firmwareAnswer s))
    { s with
      script := { s.script with
        names := s.script.names.tail, usbs := s.script.usbs.tail, firmwares := s.script.firmwares.tail }
      drawn := s.drawn + 3 }

/-- The answer of the next `getStatus`. -/
def statusAnswer (s : State) : DevStatus := s.script.statuses.headD (Config.freeStatus s.drawn)

/-- `Dev.getStatus(DEVICE_INDEX)`, recorded as CALL_STATUS (R107, R212). -/
def callStatus (p : Params) (s : State) : State :=
  emitEvent (.callStatus p.deviceIndex (statusAnswer s))
    { s with
      script := { s.script with statuses := s.script.statuses.tail }
      drawn := s.drawn + 1 }

/-- The answer of the next `writeFrame`. -/
def writeAnswer (s : State) : WriteResult := s.script.writes.headD (Config.freeWriteResult s.drawn)

/-- `Dev.writeFrame(DEVICE_INDEX, SAMPLE_RATE, single-pass and non-blocking, frame, FB_COUNT)`, recorded as
CALL_WRITE with the samples in wire form (DEDUCED, log entry 10, safe); the result is ignored (R108, R212). -/
def callWrite (p : Params) (frame : List Sample) (s : State) : State :=
  emitEvent
    (.callWrite p.deviceIndex s.sampleRate ⟨true, true⟩ (frame.map (wireOf p)) s.fbCount (writeAnswer s))
    { s with
      script := { s.script with writes := s.script.writes.tail }
      drawn := s.drawn + 1 }

/-! ### Errors -/

/-- `raise E(CWP)`: the sticky STATUS bit, the first error's cause and CWP, and the ERROR event; nothing else
(R202). CWP is still the header word's index (R76); it advances afterwards like any command's. -/
def raise (e : ErrCond) (s : State) : State :=
  emitEvent (.error e.code s.cwp)
    { s with
      status := s.status ||| e.mask
      firstErrCause := if s.firstErrCause = 0 then e.code else s.firstErrCause
      firstErrCwp := if s.firstErrCause = 0 then s.cwp else s.firstErrCwp }

end Sys2Proof.Machine
end

