-- ==== Sys2Proof/Machine/Frame.lean ====
section
/-!
DEFINITION. Frame emission, the command EMIT (41_frame_buffer.md R106 to R113).
-/

namespace Sys2Proof.Machine

open Sys2Proof

/-- A device stands at DEVICE_INDEX (R29, R107). -/
def devicePresent (p : Params) (s : State) : Bool := decide (p.deviceIndex < s.devCount)

/-- `sinkReady()`'s answer: with no device the sink counts as busy (R107). -/
def sinkReady (p : Params) (s : State) : Bool := devicePresent p s && statusAnswer s == .ready

/-- `sinkReady()`'s call: a poll only where there is a device (R107). -/
def pollSink (p : Params) (s : State) : State := if devicePresent p s then callStatus p s else s

/-- EMIT of a frame that is not empty: poll, hand over if ready, warn of any overrun whether or not it was, and
always reset both counters (R106, R109, R110, R113). -/
def emitFrame (p : Params) (frame : List Sample) (s : State) : State :=
  let s1 := pollSink p s
  let s2 := if sinkReady p s then callWrite p frame s1 else s1
  let s3 := if s2.fbOverflow ≠ 0 then emitEvent (.warnOverrun s2.fbOverflow) s2 else s2
  { s3 with fbCount := 0, fbOverflow := 0 }

/-- EMIT for any parameters (R106). The frame is a snapshot by value (R62). -/
def emit (p : Params) (s : State) : Result State :=
  if s.initDone = false then .next (raise .notInit s)
  else if s.fbCount = 0 then .next s
  else
    match memRead p s.fb 0 s.fbCount with
    | some frame => .next (emitFrame p frame s)
    | none => .fault .frameIndexOutOfRange

/-- EMIT (R106). -/
def execEmit (s : State) : Result State := emit Params.hw s

end Sys2Proof.Machine
end

