-- ==== Sys2Proof/Machine/Init.lean ====
section
/-!
DEFINITION. The command INIT (44_init.md R180 to R186).
-/

namespace Sys2Proof.Machine

open Sys2Proof

/-- The device part of INIT: open, then the informational queries of device DEVICE_INDEX, or DIAG_NO_DEVICE
(R180, R185). -/
def openDevice (p : Params) (s : State) : State :=
  let s1 := callOpen s
  if p.deviceIndex < s1.devCount then queryInfo s1 else emitEvent .diagNoDevice s1

/-- INIT's effect for any parameters (R180). It is never refused for NOT_INIT, and a repeated one keeps the
beam and the frame (R184). -/
def init (p : Params) (w h : Rat) (s : State) : State :=
  if max w h = 0 then raise .param s
  else
    let s1 := { s with
      sampleRate := BitVec.ofNat 32 p.defaultSampleRate
      scale := scaleFactor p w h }
    { openDevice p s1 with initDone := true }

/-- INIT (R180). -/
def execInit (w h : Rat) (s : State) : Result State := .next (init Params.hw w h s)

end Sys2Proof.Machine
end

