-- ==== Sys2Proof/Machine/Beam.lean ====
section
/-!
DEFINITION. The beam state machine: setOn and setPosition, which LINE shares, and the commands SETON and SETPOS
(42_beam.md R130, R134 to R136).
-/

namespace Sys2Proof.Machine

open Sys2Proof

/-- The beam's position (R22). -/
def State.pos (s : State) : Point := ⟨s.posX, s.posY⟩

/-- Write POS_X and POS_Y. -/
def State.setPos (t : Point) (s : State) : State := { s with posX := t.x, posY := t.y }

/-- `n` dwell samples at the current position and intensity. -/
def dwell (p : Params) (n : Nat) (s : State) : List Sample :=
  List.replicate n (mkSample p s.pos s.intensity)

/-- `setOn(i)`: nothing within an on/off class; else INTENSITY and the transition's dwell at the current position
with the new intensity (R130). -/
def setOn (p : Params) (i : BitVec 8) (s : State) : State :=
  if lit i = s.on then s
  else
    let s1 := { s with intensity := i }
    appendAll p (dwell p (switchCycles p (lit i)) s1) s1

/-- The number of interpolation samples of a move to `t` (R131, R132). -/
def moveSteps (p : Params) (t : Point) (s : State) : Nat :=
  steps (t.x - s.posX) (t.y - s.posY) (maxStep p s.on)

/-- The interpolation samples of a move to `t`: P_k for k = 1..n at the current intensity (R133, R134). -/
def moveSamples (p : Params) (t : Point) (s : State) : List Sample :=
  (List.range' 1 (moveSteps p t s)).map fun k =>
    mkSample p (pathPoint s.pos t (moveSteps p t s) k) s.intensity

/-- `setPosition(T)`: the interpolation samples, then the position, then the settle dwell at the target, appended
even for a move of no steps (R134). -/
def setPosition (p : Params) (t : Point) (s : State) : State :=
  let s1 := appendAll p (moveSamples p t s) s
  let s2 := s1.setPos t
  appendAll p (dwell p (settleCycles p s2.on) s2) s2

/-- SETON's effect for any parameters (R135). -/
def seton (p : Params) (i : BitVec 8) (s : State) : State :=
  if s.initDone = false then raise .notInit s else setOn p i s

/-- SETPOS's effect for any parameters (R136). -/
def setpos (p : Params) (x y : Rat) (s : State) : State :=
  if s.initDone = false then raise .notInit s
  else if inRange p ⟨x, y⟩ = false then raise .range s
  else setPosition p ⟨x, y⟩ s

/-- SETON (R135). -/
def execSeton (i : BitVec 8) (s : State) : Result State := .next (seton Params.hw i s)

/-- SETPOS (R136). -/
def execSetpos (x y : Rat) (s : State) : Result State := .next (setpos Params.hw x y s)

end Sys2Proof.Machine
end

