-- ==== Sys2Proof/Machine/Raster.lean ====
section
/-!
DEFINITION. The line rasterizer's command LINE (43_rasterizer.md R160 to R165).
-/

namespace Sys2Proof.Machine

open Sys2Proof

/-- Step 2 of LINE for a discontinuous line: blank, then jump to `p0` (R160). -/
def blankJump (p : Params) (p0 : Point) (s : State) : State := setPosition p p0 (setOn p 0 s)

/-- LINE from scaled endpoints that are in range: blank and jump when `p0` is not near the beam, light at the
colour, move to `p1` (R160). -/
def renderLine (p : Params) (p0 p1 : Point) (c : BitVec 8) (s : State) : State :=
  let jump := !near p s.pos p0
  let s1 := if jump then blankJump p p0 s else s
  let s2 := if jump || p.rasterSetonAlways then setOn p c s1 else s1
  setPosition p p1 s2

/-- LINE's effect for any parameters (R160). NOT_INIT comes before the scaling, and RANGE before any write
(R207). -/
def line (p : Params) (x0 y0 x1 y1 : Rat) (c : BitVec 8) (s : State) : State :=
  if s.initDone = false then raise .notInit s
  else
    let p0 := scalePoint s.scale ⟨x0, y0⟩
    let p1 := scalePoint s.scale ⟨x1, y1⟩
    if (inRange p p0 && inRange p p1) = false then raise .range s
    else renderLine p p0 p1 c s

/-- LINE (R160). -/
def execLine (x0 y0 x1 y1 : Rat) (c : BitVec 8) (s : State) : Result State :=
  .next (line Params.hw x0 y0 x1 y1 c s)

end Sys2Proof.Machine
end

