-- ==== Sys2Proof/Machine/Dispatch.lean ====
section
/-!
DEFINITION. One arm per command (30_encoding.md R73, R80 "dispatch").
-/

namespace Sys2Proof.Machine

open Sys2Proof

-- The command's effect. CWP's advance and emptying PEND are the step's (R75, R76).
def exec (i : Instr) (s : State) : Host.Outcome State Fault Refusal :=
  match i with
  | .init w h => Sys2Proof.Machine.execInit w h s
  | .seton i8 => Sys2Proof.Machine.execSeton i8 s
  | .setpos x y => Sys2Proof.Machine.execSetpos x y s
  | .line x0 y0 x1 y1 c => Sys2Proof.Machine.execLine x0 y0 x1 y1 c s
  | .emit => Sys2Proof.Machine.execEmit s

end Sys2Proof.Machine
end

