-- ==== Sys2Proof/Machine/Fetch.lean ====
section
/-!
DEFINITION. Command assembly and the word pointer (30_encoding.md R75, R76, R80): taking the host's words one by
one until a command is whole, executing it, advancing CWP by its length and emptying PEND. It is said once for any way
a command runs: this hardware's `exec`, or `execWith` of any parameters (R7).
-/

namespace Sys2Proof.Machine

open Sys2Proof

/-- `execute(PEND)` for commands that run by `run`: an illegal header raises ILLEGAL whole, before any operand is
decoded (R80, R203); else the command's rule. -/
def executeBy (run : Instr → State → Result State) (words : List Word) (s : State) : Result State :=
  match decodeCommand words with
  | .ok i => run i s
  | .error _ => .next (raise .illegal s)

/-- `execute(PEND)` on this hardware. -/
def execute (words : List Word) (s : State) : Result State := executeBy exec words s

/-- After a command of `n` words, whether it raised an error or not: CWP advances by n modulo 2^32 (R76) and PEND
is emptied (R75). -/
def State.retire (n : Nat) (s : State) : State := { s with cwp := s.cwp + BitVec.ofNat 32 n, pend := [] }

/-- The same on an outcome. -/
def retireOutcome (n : Nat) : Result State → Result State
  | .next t => .next (t.retire n)
  | .fault r => .fault r
  | .refused r => .refused r

/-- `length(PEND) == len(PEND[0][7:0])` (R75). -/
def pendComplete : List Word → Bool
  | [] => false
  | h :: ops => (h :: ops).length == cmdLen (opc h)

/-- What the CORE does on one arriving word (R75), for commands that run by `run`. -/
def onWordBy (run : Instr → State → Result State) (w : Word) (s : State) : Result State :=
  if pendComplete (s.pend ++ [w]) then
    retireOutcome (s.pend ++ [w]).length (executeBy run (s.pend ++ [w]) { s with pend := s.pend ++ [w] })
  else .next { s with pend := s.pend ++ [w] }

/-- What the CORE does on one arriving word, on this hardware. -/
def onWord (w : Word) (s : State) : Result State := onWordBy exec w s

/-- Take words until a command has executed or they have run out. -/
def takeWordsBy (run : Instr → State → Result State) : List Word → State → Result State
  | [], s => .next { s with input := [] }
  | w :: ws, s =>
    match onWordBy run w { s with input := ws } with
    | .next t => if t.pend = [] then .next t else takeWordsBy run ws t
    | .fault r => .fault r
    | .refused r => .refused r

/-- One step from the host's queue of words. With no word the CORE holds its state and does nothing at a command
boundary (R219, R236), and is stuck inside a command (I12; DESIGN CHOICE, log entry 4, safe). -/
def fetchStepBy (run : Instr → State → Result State) (s : State) : Result State :=
  match s.input with
  | [] => if s.pend = [] then .next s else .fault .streamEndsInsideCommand
  | w :: ws => takeWordsBy run (w :: ws) s

/-- Only the words of the first command of a list. -/
def firstCommand : List Word → List Word
  | [] => []
  | h :: ops => (h :: ops).take (cmdLen (opc h))

/-- The host sends one command's words, next in line at a command boundary (log entry 3). -/
def State.sendCommand (words : List Word) (s : State) : State :=
  { s with pend := [], input := firstCommand words ++ s.input }

end Sys2Proof.Machine
end

