-- ==== Sys2Proof/Machine/Parameters.lean ====
section
/-!
DEFINITION. The commands over any values of the implementation parameters (00_scope.md R7: "A model takes each as an
argument"). `exec` is the same at this hardware's values.
-/

namespace Sys2Proof.Machine

open Sys2Proof

/-- One command's effect on the CORE whose parameters are `p` (R7). -/
def execWith (p : Params) (i : Instr) (s : State) : Result State :=
  match i with
  | .init w h => .next (init p w h s)
  | .seton c => .next (seton p c s)
  | .setpos x y => .next (setpos p x y s)
  | .line x0 y0 x1 y1 c => .next (line p x0 y0 x1 y1 c s)
  | .emit => emit p s

end Sys2Proof.Machine
end

