-- ==== Sys2Proof/Machine/Step.lean ====
section
/-!
DEFINITION. One step of the machine: the next command of the host's stream, whole (20_memory.md R61, 30_encoding.md
R75), and how an instruction is placed where the step takes it.
-/

namespace Sys2Proof.Machine

open Sys2Proof

/-- One step: the CORE takes the host's words up to the end of one command and executes it
(DEDUCED, log entry 2, safe). -/
def step (s : State) : Host.Outcome State Fault Refusal := fetchStepBy exec s

/-- One step of the CORE whose parameters are `p` (R7). -/
def stepWith (p : Params) (s : State) : Host.Outcome State Fault Refusal := fetchStepBy (execWith p) s

/-- The state in which the host's next words are those of the instruction with the bits `w`. -/
def State.withFetchWord (s : State) (nbits w : Nat) : State := s.sendCommand (tableWords nbits w)

end Sys2Proof.Machine
end

