-- ==== Sys2Proof/Machine/Assembler.lean ====
section
/-!
DEFINITION. The assembler of the command interface: one command per line, the pseudo-instructions BLANK and JUMP,
`.word`, and the refusal of any number that its operand cannot hold exactly (30_encoding.md R83, R84). It stands
outside the machine: the CORE sees only the words. Its lexical conventions are DESIGN CHOICES (log entry 13), safe.
-/

namespace Sys2Proof.Machine

open Sys2Proof

/-- Why the assembler refuses a line. -/
inductive AsmError where
  /-- The line's first word is no mnemonic of R83 or R84. -/
  | unknownMnemonic
  /-- An operand is not written as a number (R83). -/
  | badNumber
  /-- Too few or too many operands. -/
  | operandCount
  /-- A number off the 2^-16 grid or outside its operand's range (R83). -/
  | outOfRange
  deriving DecidableEq, Repr

/-- One source line (R83, R84). -/
inductive AsmLine where
  /-- A line with nothing but spaces or a comment. -/
  | empty
  | command (i : Instr)
  /-- `.word v`: a raw word. -/
  | word (v : Word)
  /-- `BLANK`. -/
  | blank
  /-- `JUMP x, y`, in device units. -/
  | jump (x y : Rat)
  deriving DecidableEq, Repr

/-- A command's words, refused where it has no encoding (R83). -/
def asmCommand (i : Instr) : Except AsmError (List Word) :=
  if i.WellFormed then .ok (encode i) else .error .outOfRange

/-- The words of a line: `BLANK` is `SETON 0`, and `JUMP x, y` is `SETON 0` then `SETPOS x, y` (R84). -/
def AsmLine.words : AsmLine → Except AsmError (List Word)
  | .empty => .ok []
  | .command i => asmCommand i
  | .word v => .ok [v]
  | .blank => asmCommand (.seton 0)
  | .jump x y =>
    match asmCommand (.seton 0), asmCommand (.setpos x y) with
    | .ok a, .ok b => .ok (a ++ b)
    | .error e, _ => .error e
    | _, .error e => .error e

/-! ### Numbers (R83) -/

/-- A digit's value in a base of at most 16. -/
def digitValue (base : Nat) (c : Char) : Option Nat :=
  let n := c.toNat
  let v := if 48 ≤ n ∧ n ≤ 57 then n - 48
    else if 97 ≤ n ∧ n ≤ 102 then n - 87
    else if 65 ≤ n ∧ n ≤ 70 then n - 55
    else base
  if v < base then some v else none

/-- Digits read after the value `acc`. -/
def digitsFrom (base : Nat) : Nat → List Char → Option Nat
  | acc, [] => some acc
  | acc, c :: cs =>
    match digitValue base c with
    | some d => digitsFrom base (acc * base + d) cs
    | none => none

/-- A number of at least one digit. -/
def digits (base : Nat) : List Char → Option Nat
  | [] => none
  | cs => digitsFrom base 0 cs

/-- Cut a text at every occurrence of a character. -/
def cutAt (sep : Char) : List Char → List (List Char)
  | [] => [[]]
  | c :: cs =>
    if c = sep then [] :: cutAt sep cs
    else
      match cutAt sep cs with
      | [] => [[c]]
      | l :: ls => (c :: l) :: ls

/-- An unsigned decimal with an optional fractional part. -/
def decimal (cs : List Char) : Option Rat :=
  match cutAt '.' cs with
  | [a] => (digits 10 a).map fun n => (n : Rat)
  | [a, b] =>
    match digits 10 a, digits 10 b with
    | some n, some f => some (n + (f : Rat) / (10 : Rat) ^ b.length)
    | _, _ => none
  | _ => none

/-- A number: a decimal with an optional sign, or a hexadecimal integer `0x…`. -/
def number : List Char → Option Rat
  | '0' :: 'x' :: hs => (digits 16 hs).map fun n => (n : Rat)
  | '-' :: cs => (decimal cs).map fun q => -q
  | cs => decimal cs

/-- A number that is an integer 0 ≤ n < bound. -/
def natBelow (bound : Nat) (q : Rat) : Option Nat :=
  if q.den = 1 ∧ 0 ≤ q.num ∧ q.num.toNat < bound then some q.num.toNat else none

/-! ### Lines -/

/-- A blank character. -/
def isBlank (c : Char) : Bool := c == ' ' || c == '\t' || c == '\r'

/-- A text without blanks at its ends. -/
def trim (cs : List Char) : List Char :=
  ((cs.dropWhile isBlank).reverse.dropWhile isBlank).reverse

/-- The operands after the mnemonic, separated by commas. -/
def operands (cs : List Char) : Option (List Rat) :=
  match trim cs with
  | [] => some []
  | ds => (cutAt ',' ds).mapM fun d => number (trim d)

/-- A line from its mnemonic, in lower case, and its operands. -/
def lineOf (mnemonic : String) (ops : List Rat) : Except AsmError AsmLine :=
  match mnemonic, ops with
  | "init", [w, h] => .ok (.command (.init w h))
  | "seton", [i] =>
    match natBelow 256 i with
    | some n => .ok (.command (.seton (BitVec.ofNat 8 n)))
    | none => .error .outOfRange
  | "setpos", [x, y] => .ok (.command (.setpos x y))
  | "line", [x0, y0, x1, y1, c] =>
    match natBelow 256 c with
    | some n => .ok (.command (.line x0 y0 x1 y1 (BitVec.ofNat 8 n)))
    | none => .error .outOfRange
  | "emit", [] => .ok (.command .emit)
  | ".word", [v] =>
    match natBelow 4294967296 v with
    | some n => .ok (.word (BitVec.ofNat 32 n))
    | none => .error .outOfRange
  | "blank", [] => .ok .blank
  | "jump", [x, y] => .ok (.jump x y)
  | m, _ =>
    if m ∈ ["init", "seton", "setpos", "line", "emit", ".word", "blank", "jump"] then .error .operandCount
    else .error .unknownMnemonic

/-- Read one source line: `;` starts a comment, and the mnemonic's case does not matter (R83). -/
def readLine (cs : List Char) : Except AsmError AsmLine :=
  match trim (cs.takeWhile (· != ';')) with
  | [] => .ok .empty
  | body =>
    match operands (body.dropWhile (!isBlank ·)) with
    | some ops => lineOf (String.ofList ((body.takeWhile (!isBlank ·)).map Char.toLower)) ops
    | none => .error .badNumber

/-- The words of a list of lines, in order; the first refused line refuses the text. -/
def asmLines : List (List Char) → Except AsmError (List Word)
  | [] => .ok []
  | l :: ls =>
    match readLine l with
    | .error e => .error e
    | .ok a =>
      match a.words, asmLines ls with
      | .ok ws, .ok vs => .ok (ws ++ vs)
      | .error e, _ => .error e
      | _, .error e => .error e

/-- Assemble a source text (R83). -/
def assemble (text : String) : Except AsmError (List Word) := asmLines (cutAt '\n' text.toList)

end Sys2Proof.Machine
end

