-- ==== Sys2Proof/Safety.lean ====
section
/-!
DEFINITION. What counts as a good state and a good end of a run: the invariants every command preserves
(10_state.md R37, R33, R34, R35; 20_memory.md R51, R59), no recorded error (60_exceptions.md R202), and the end of a run
(70_reset_and_hazards.md R236).
-/

namespace Sys2Proof.Machine

open Sys2Proof

/-- PEND holds a command that has arrived only in part, or nothing (R35, R75). -/
def pendPartial : List Word → Bool
  | [] => true
  | h :: ops => decide ((h :: ops).length < cmdLen (opc h))

/-- The invariants of R37 (items 1 to 5), with those R33, R34, R35, R51 and R59 state of the error registers, PEND and
the frame buffer. -/
structure State.Inv (p : Params) (s : State) : Prop where
  /-- R37 item 1. -/
  count_le : s.fbCount ≤ p.fbCapacity
  /-- R37 item 2. -/
  overflow_full : s.fbOverflow ≠ 0 → s.fbCount = p.fbCapacity
  /-- R37 item 3. -/
  posX_range : 0 ≤ s.posX ∧ s.posX ≤ p.maxCoord
  /-- R37 item 3. -/
  posY_range : 0 ≤ s.posY ∧ s.posY ≤ p.maxCoord
  /-- R37 item 4. -/
  scale_pos : s.initDone = true → 0 < s.scale
  /-- R37 item 4. -/
  rate_default : s.initDone = true → s.sampleRate = BitVec.ofNat 32 p.defaultSampleRate
  /-- R37 item 5. -/
  status_zero_iff : s.status = 0 ↔ s.firstErrCause = 0
  /-- R33: bits [31:4] read 0. -/
  status_reserved : s.status &&& 0xFFFFFFF0 = 0
  /-- R34: codes 5..255 are never written. -/
  cause_le : s.firstErrCause ≤ 4
  /-- R34: FIRST_ERR_CWP is 0 while no error has occurred. -/
  errCwp_zero : s.firstErrCause = 0 → s.firstErrCwp = 0
  /-- R35: PEND holds fewer words than its command has. -/
  pend_partial : pendPartial s.pend = true
  /-- The frame buffer's canonical form (R50). -/
  fb_wf : s.fb.wf p.fbCapacity
  /-- Every entry of the current frame has been written: no unspecified entry is ever emitted (R59, I2). -/
  frame_written : ∀ i, i < s.fbCount → (s.fb.get? i).isSome = true
  /-- R51: a written entry's coordinates are in 0..MAX_COORD and its power in 0..FULL_POWER. -/
  samples_range : ∀ e ∈ s.fb, e.2.x ≤ p.maxCoord ∧ e.2.y ≤ p.maxCoord ∧ e.2.p.toNat ≤ p.fullPower

/-- No error has been recorded: the premise of every claim about a stream's effect (R202). -/
def State.NoError (s : State) : Prop := s.status = 0

/-- A run ends at a command boundary, with no word waiting (R236). -/
def State.AtEnd (s : State) : Prop := s.pend = [] ∧ s.input = []

/-- An ERROR event (R212). -/
def Event.isError : Event → Bool
  | .error _ _ => true
  | _ => false

/-- The events that `t`'s trace has after `s`'s. -/
def newEvents (s t : State) : List Event := t.trace.drop s.trace.length

/-- The samples of a move from `a` to `t` with step bound `m` at intensity `i`: the interpolation points P_1 .. P_n
for n = steps(t - a, m), floored (R131, R133, R52). -/
def pathSamples (p : Params) (a t : Point) (m : Nat) (i : BitVec 8) : List Sample :=
  (List.range' 1 (steps (t.x - a.x) (t.y - a.y) m)).map fun k =>
    mkSample p (pathPoint a t (steps (t.x - a.x) (t.y - a.y) m) k) i

/-- What appending the samples `l` one after another does to the frame buffer and its counters (R100, R102): the
first ones that fit are kept verbatim and in order from FB_COUNT on, every other entry is as before, and the rest
are counted in the saturating FB_OVERFLOW. -/
structure Appended (p : Params) (l : List Sample) (s t : State) : Prop where
  /-- The samples that fit are counted in FB_COUNT. -/
  count : t.fbCount = s.fbCount + min l.length (p.fbCapacity - s.fbCount)
  /-- Each kept sample stands at its index. -/
  kept : ∀ k, k < min l.length (p.fbCapacity - s.fbCount) → t.fb.get? (s.fbCount + k) = l[k]?
  /-- Every other entry reads as before. -/
  others : ∀ j, j < s.fbCount ∨ s.fbCount + min l.length (p.fbCapacity - s.fbCount) ≤ j →
    t.fb.get? j = s.fb.get? j
  /-- The samples that do not fit are counted in FB_OVERFLOW. -/
  overflow : t.fbOverflow.toNat = min (s.fbOverflow.toNat + (l.length - (p.fbCapacity - s.fbCount))) 4294967295

/-- Everything but the frame buffer and its two counters is as in `s`. -/
def SameButFrame (s t : State) : Prop :=
  { t with fb := s.fb, fbCount := s.fbCount, fbOverflow := s.fbOverflow } = s

/-- Everything but the error registers and the trace is as in `s`: what R202 lets a raised command change. -/
def SameButErrors (s t : State) : Prop :=
  { t with status := s.status, firstErrCause := s.firstErrCause, firstErrCwp := s.firstErrCwp, trace := s.trace } = s

end Sys2Proof.Machine
end

