-- ==== Sys2Proof/Certificates/Slice0/Obligations.lean ====
section
/-!
DEFINITION. What the model claims, one statement each, for the provers.
-/

open Sys2Proof Sys2Proof.Machine

/-! ### Encoding -/

/-- R86's table: each assembly line gives its words. -/
def Obligations.WorkedEncodingsAssemble : Prop :=
  (assemble "INIT 4095, 4095").toOption = some [0x00000001, 0x0FFF0000, 0x0FFF0000] ∧
  (assemble "SETON 255").toOption = some [0x0000FF02] ∧
  (assemble "SETON 0").toOption = some [0x00000002] ∧
  (assemble "SETPOS 20, 0").toOption = some [0x00000003, 0x00140000, 0x00000000] ∧
  (assemble "SETPOS 7.5, 0.25").toOption = some [0x00000003, 0x00078000, 0x00004000] ∧
  (assemble "LINE 100, 100, 110, 100, 255").toOption =
    some [0x0000FF04, 0x00640000, 0x00640000, 0x006E0000, 0x00640000] ∧
  (assemble "LINE -1, 0, 0, 0, 1").toOption =
    some [0x00000104, 0xFFFF0000, 0x00000000, 0x00000000, 0x00000000] ∧
  (assemble "EMIT").toOption = some [0x00000005] ∧
  (assemble ".word 0x00000000").toOption = some [0x00000000] ∧
  (assemble ".word 0x00010005").toOption = some [0x00010005]

/-- The words of R86's table, written out, decode to the commands they stand for; the two illegal ones to none. -/
def Obligations.WorkedEncodingsDecode : Prop :=
  (decode [0x00000001, 0x0FFF0000, 0x0FFF0000]).toOption = some (.init 4095 4095, []) ∧
  (decode [0x0000FF02]).toOption = some (.seton 255, []) ∧
  (decode [0x00000003, 0x00078000, 0x00004000]).toOption = some (.setpos (15 / 2) (1 / 4), []) ∧
  (decode [0x00000104, 0xFFFF0000, 0x00000000, 0x00000000, 0x00000000]).toOption =
    some (.line (-1) 0 0 0 1, []) ∧
  (decode [0x00000005]).toOption = some (.emit, []) ∧
  (decode [0x00000000]).toOption = none ∧
  (decode [0x00010005]).toOption = none

/-- R74: the length of every opcode, the reserved ones too. -/
def Obligations.CommandLengthFromOpcodeAlone : Prop :=
  cmdLen 0x01 = 3 ∧ cmdLen 0x02 = 1 ∧ cmdLen 0x03 = 3 ∧ cmdLen 0x04 = 5 ∧ cmdLen 0x05 = 1 ∧
  (∀ o : BitVec 8, o = 0x00 ∨ 0x06 ≤ o → cmdLen o = 1) ∧
  ∀ h h' : Word, opc h = opc h' → cmdLen (opc h) = cmdLen (opc h')

/-- Decoding an encoded well-formed command gives it back, and leaves the words after it. -/
def Obligations.DecodeOfEncodeIsIdentity : Prop :=
  ∀ (i : Instr) (rest : List Word), i.WellFormed = true → decode (encode i ++ rest) = .ok (i, rest)

/-- Each command has one encoding: words that decode are the encoding of the well-formed command they give. -/
def Obligations.EncodeOfDecodeIsIdentity : Prop :=
  ∀ (ws rest : List Word) (i : Instr), decode ws = .ok (i, rest) → i.WellFormed = true ∧ ws = encode i ++ rest

/-- R73's mask and match: a whole command decodes exactly when its header selects a row, no header selects two
rows, and the row selected has the header's opcode and the command's length. -/
def Obligations.OpcodeRowsDecideLegality : Prop :=
  (∀ (h : Word) (ops : List Word), (h :: ops).length = cmdLen (opc h) →
    ((∃ i, decodeCommand (h :: ops) = .ok i) ↔ ∃ r ∈ opcodeTable, r.selects h = true)) ∧
  (∀ (h : Word), ∀ r ∈ opcodeTable, ∀ r' ∈ opcodeTable, r.selects h = true → r'.selects h = true → r = r') ∧
  (∀ (h : Word), ∀ r ∈ opcodeTable, r.selects h = true → r.opcode = opc h ∧ r.length = cmdLen (opc h))

/-- R55, R56: words carried as bytes come back, and bytes that end inside a word deliver no word. -/
def Obligations.ByteTransportDeliversWords : Prop :=
  ∀ (ws : List Word) (tail : List Byte), tail.length < 4 →
    wordsOfBytes (ws.flatMap bytesOfWord ++ tail) = ws

/-- R84: the words of the two pseudo-instructions. -/
def Obligations.PseudoInstructionsExpand : Prop :=
  AsmLine.blank.words = .ok [0x00000002] ∧
  ∀ x y : Rat, coordOk x = true → coordOk y = true →
    (AsmLine.jump x y).words = .ok [0x00000002, 0x00000003, toQ16 x, toQ16 y] ∧
    q16 (toQ16 x) = x ∧ q16 (toQ16 y) = y

/-- R83: the assembler never rounds: the words it gives for a command decode to that very command, and a command
that no words decode to (a number off the 2^-16 grid, or out of its operand's range) is refused. -/
def Obligations.AssemblerNeverRounds : Prop :=
  (∀ (i : Instr) (ws : List Word), asmCommand i = .ok ws → decode ws = .ok (i, [])) ∧
  (∀ i : Instr, (∀ ws : List Word, decode ws ≠ .ok (i, [])) → asmCommand i = .error .outOfRange)

/-! ### Samples -/

/-- R53 and R54: the wire word's fields and its bytes on this hardware. -/
def Obligations.SampleWireForm : Prop :=
  (∀ s : Sample, (wireOf Params.hw s).width = 48 ∧
    (wireOf Params.hw s).word.extractLsb' 0 12 = BitVec.ofNat 12 s.x ∧
    (wireOf Params.hw s).word.extractLsb' 12 12 = BitVec.ofNat 12 s.y ∧
    (wireOf Params.hw s).word.extractLsb' 24 8 = s.p ∧ (wireOf Params.hw s).word.extractLsb' 32 8 = 0 ∧
    (wireOf Params.hw s).word.extractLsb' 40 8 = 0) ∧
  ∀ w : WireSample, w.width = 48 → (wireBytes w).length = 6 ∧
    ∀ k, k < 6 → (wireBytes w)[k]? = some (w.word.extractLsb' (8 * k) 8)

/-- R52: at any parameters, the floors of coordinates in range are the fields and at most MAX_COORD, and the power is
floor(i · FULL_POWER / 255) wherever a `u8` holds FULL_POWER; on this hardware it is i. -/
def Obligations.FormingASampleFloors : Prop :=
  ∀ (p : Params) (x y : Rat) (i : BitVec 8), p.Wf → 0 ≤ x → x ≤ p.maxCoord → 0 ≤ y → y ≤ p.maxCoord →
    ((mkSample p ⟨x, y⟩ i).x : Int) = x.floor ∧ ((mkSample p ⟨x, y⟩ i).y : Int) = y.floor ∧
    (mkSample p ⟨x, y⟩ i).x ≤ p.maxCoord ∧ (mkSample p ⟨x, y⟩ i).y ≤ p.maxCoord ∧
    (p.fullPower < 256 →
      ((mkSample p ⟨x, y⟩ i).p.toNat : Int) = ((i.toNat : Rat) * p.fullPower / 255).floor) ∧
    (mkSample Params.hw ⟨x, y⟩ i).p = i

/-! ### Reset and the invariants -/

/-- R230: every register after reset, no Device Session call, no event; a frame-buffer entry holds an unspecified
value; the first word after reset is read as a header word. -/
def Obligations.ResetLeaves : Prop :=
  State.reset.posX = 0 ∧ State.reset.posY = 0 ∧ State.reset.intensity = 0 ∧
  State.reset.sampleRate = 0 ∧ State.reset.scale = 0 ∧ State.reset.initDone = false ∧
  State.reset.devCount = 0 ∧ State.reset.fbCount = 0 ∧ State.reset.fbOverflow = 0 ∧
  State.reset.status = 0 ∧ State.reset.firstErrCause = 0 ∧ State.reset.firstErrCwp = 0 ∧
  State.reset.cwp = 0 ∧ State.reset.pend = [] ∧ State.reset.trace = [] ∧
  (∀ i, State.reset.fb.read i = Config.freeFbEntry i) ∧
  (∀ w : Word, 1 < cmdLen (opc w) → onWord w State.reset = .next { State.reset with pend := [w] }) ∧
  ∀ w : Word, cmdLen (opc w) = 1 →
    onWord w State.reset = retireOutcome 1 (execute [w] { State.reset with pend := [w] })

/-- The reset state meets the invariants. -/
def Obligations.ResetMeetsInvariants : Prop := State.reset.Inv Params.hw

/-- R37: every step keeps the invariants, from any state that meets them. -/
def Obligations.StepKeepsInvariants : Prop :=
  ∀ s t : State, s.Inv Params.hw → step s = .next t → t.Inv Params.hw

/-! ### The step: assembly, the word pointer, illegal headers -/

/-- When PEND and the host's next words together are a well-formed command, in whichever split they arrive, the step
is that command's `exec` with the command's words in PEND and the later words still waiting; then CWP advances by
the command's length and PEND is emptied. -/
def Obligations.StepRunsTheDecodedCommand : Prop :=
  ∀ (i : Instr) (pre post rest : List Word) (s : State), i.WellFormed = true → encode i = pre ++ post →
    post ≠ [] → s.pend = pre → s.input = post ++ rest →
    step s = retireOutcome (encode i).length (exec i { s with pend := encode i, input := rest })

/-- R80: a whole command, in whichever split its words arrive, whose header is illegal raises ILLEGAL, its operand words consumed and not decoded; a
legal header with any operand words is a command. -/
def Obligations.IllegalHeadersRaiseIllegal : Prop :=
  (∀ (h : Word) (ops post rest : List Word) (s : State), (h :: ops).length = cmdLen (opc h) →
    post ≠ [] → s.pend ++ post = h :: ops → s.input = post ++ rest →
    ((opc h = 0x00 ∨ 0x06 ≤ opc h) ∨ rsv h ≠ 0 ∨
      ((opc h = 0x01 ∨ opc h = 0x03 ∨ opc h = 0x05) ∧ imm8 h ≠ 0)) →
    step s = .next ((raise .illegal { s with pend := h :: ops, input := rest }).retire (cmdLen (opc h)))) ∧
  (∀ (h : Word) (ops : List Word), (h :: ops).length = cmdLen (opc h) → 0x01 ≤ opc h → opc h ≤ 0x05 →
    rsv h = 0 → ((opc h = 0x01 ∨ opc h = 0x03 ∨ opc h = 0x05) → imm8 h = 0) →
    ∃ i, decodeCommand (h :: ops) = .ok i ∧ ∀ s, execute (h :: ops) s = exec i s)

/-- Words that end inside their command only join PEND: nothing else changes (R35, R75). With no word waiting the
CORE does nothing at a command boundary (R219), and there is no step inside a command (R236; the model's name for
being stuck is log entry 4's). -/
def Obligations.PartOfACommandHasNoEffect : Prop :=
  (∀ (h : Word) (ops : List Word) (s : State), s.input ≠ [] → s.pend ++ s.input = h :: ops →
    (h :: ops).length < cmdLen (opc h) → step s = .next { s with pend := h :: ops, input := [] }) ∧
  (∀ s : State, s.input = [] → s.pend = [] → step s = .next s) ∧
  (∀ s : State, s.input = [] → s.pend ≠ [] → step s = .fault .streamEndsInsideCommand)

/-- R76: after every whole command, legal or not, raised or not, CWP has advanced by its length modulo 2^32, and
every error it recorded carries the CWP of its header word. -/
def Obligations.CwpAdvancesByTheLength : Prop :=
  ∀ (h : Word) (ops post rest : List Word) (s : State), (h :: ops).length = cmdLen (opc h) →
    post ≠ [] → s.pend ++ post = h :: ops → s.input = post ++ rest → s.fbCount ≤ Params.hw.fbCapacity →
    ∃ t, step s = .next t ∧ t.cwp = s.cwp + BitVec.ofNat 32 (cmdLen (opc h)) ∧ t.pend = [] ∧ t.input = rest ∧
      (∀ code c, Event.error code c ∈ newEvents s t → c = s.cwp) ∧
      (s.firstErrCause = 0 → t.firstErrCause ≠ 0 → t.firstErrCwp = s.cwp)

/-! ### Errors -/

/-- What raising an error records, and that it records nothing else (R33, R34, R202). -/
def Obligations.RaiseRecordsTheError : Prop :=
  ∀ (e : ErrCond) (s : State),
    (raise e s).status.getLsbD e.bit = true ∧
    (∀ b, b ≠ e.bit → (raise e s).status.getLsbD b = s.status.getLsbD b) ∧
    (s.firstErrCause = 0 → (raise e s).firstErrCause = e.code ∧ (raise e s).firstErrCwp = s.cwp) ∧
    (s.firstErrCause ≠ 0 →
      (raise e s).firstErrCause = s.firstErrCause ∧ (raise e s).firstErrCwp = s.firstErrCwp) ∧
    (raise e s).trace = s.trace ++ [.error e.code s.cwp] ∧
    SameButErrors s (raise e s) ∧
    (ErrCond.illegal.bit = 0 ∧ ErrCond.notInit.bit = 1 ∧ ErrCond.range.bit = 2 ∧ ErrCond.param.bit = 3) ∧
    (ErrCond.illegal.code = 1 ∧ ErrCond.notInit.code = 2 ∧ ErrCond.range.code = 3 ∧ ErrCond.param.code = 4)

/-- R204: before INIT the four other commands raise NOT_INIT, whatever their operands. -/
def Obligations.CommandsBeforeInitRaiseNotInit : Prop :=
  ∀ s : State, s.initDone = false →
    (∀ i, exec (.seton i) s = .next (raise .notInit s)) ∧
    (∀ x y, exec (.setpos x y) s = .next (raise .notInit s)) ∧
    (∀ x0 y0 x1 y1 c, exec (.line x0 y0 x1 y1 c) s = .next (raise .notInit s)) ∧
    exec .emit s = .next (raise .notInit s)

/-- R205: a target or a scaled endpoint outside 0..MAX_COORD is refused whole, both bounds included in the range. -/
def Obligations.OutOfRangeTargetsRaiseRange : Prop :=
  ∀ s : State, s.initDone = true →
    (∀ x y, (x < 0 ∨ 4095 < x ∨ y < 0 ∨ 4095 < y) → exec (.setpos x y) s = .next (raise .range s)) ∧
    (∀ x0 y0 x1 y1 c,
      (x0 * s.scale < 0 ∨ 4095 < x0 * s.scale ∨ y0 * s.scale < 0 ∨ 4095 < y0 * s.scale ∨
        x1 * s.scale < 0 ∨ 4095 < x1 * s.scale ∨ y1 * s.scale < 0 ∨ 4095 < y1 * s.scale) →
      exec (.line x0 y0 x1 y1 c) s = .next (raise .range s))

/-- R206: INIT with both bounds 0 is refused, and no register but the error registers changes (CWP is the step's). -/
def Obligations.ZeroBoundsRaiseParam : Prop :=
  ∀ s : State, exec (.init 0 0) s = .next (raise .param s) ∧ SameButErrors s (raise .param s)

/-- R207: the order of the checks on a whole command, and at most one error a command. -/
def Obligations.ErrorPriority : Prop :=
  ∀ (h : Word) (ops : List Word) (s : State), (h :: ops).length = cmdLen (opc h) →
    (opcDefined (opc h) = false → execute (h :: ops) s = .next (raise .illegal s)) ∧
    (opcDefined (opc h) = true → (rsv h ≠ 0 ∨ (imm8MustBeZero (opc h) = true ∧ imm8 h ≠ 0)) →
      execute (h :: ops) s = .next (raise .illegal s)) ∧
    (∀ i, decodeCommand (h :: ops) = .ok i → opc h ≠ 0x01 → s.initDone = false →
      execute (h :: ops) s = .next (raise .notInit s)) ∧
    (∀ w v, decodeCommand (h :: ops) = .ok (.init w v) → w = 0 → v = 0 →
      execute (h :: ops) s = .next (raise .param s)) ∧
    (∀ x y, decodeCommand (h :: ops) = .ok (.setpos x y) → s.initDone = true →
      inRange Params.hw ⟨x, y⟩ = false → execute (h :: ops) s = .next (raise .range s)) ∧
    (∀ x0 y0 x1 y1 c, decodeCommand (h :: ops) = .ok (.line x0 y0 x1 y1 c) → s.initDone = true →
      (inRange Params.hw ⟨x0 * s.scale, y0 * s.scale⟩ = false ∨
        inRange Params.hw ⟨x1 * s.scale, y1 * s.scale⟩ = false) →
      execute (h :: ops) s = .next (raise .range s)) ∧
    (∀ t, execute (h :: ops) s = .next t → (newEvents s t).countP Event.isError ≤ 1)

/-- Errors are precise: a command either raises exactly one error and changes nothing but the error registers and
the trace, or records no error at all (R202, R208). -/
def Obligations.ErrorsArePrecise : Prop :=
  ∀ (i : Instr) (s t : State), exec i s = .next t →
    (∃ e, t = raise e s) ∨
    (t.status = s.status ∧ t.firstErrCause = s.firstErrCause ∧ t.firstErrCwp = s.firstErrCwp ∧
      ∀ ev ∈ newEvents s t, ev.isError = false)

/-- The error bits are sticky and the first error's registers are written once: no step clears or rewrites them
(R33, R34, R202, R231). -/
def Obligations.ErrorRegistersAreSticky : Prop :=
  ∀ s t : State, step s = .next t →
    (∀ b, s.status.getLsbD b = true → t.status.getLsbD b = true) ∧
    (s.firstErrCause ≠ 0 → t.firstErrCause = s.firstErrCause ∧ t.firstErrCwp = s.firstErrCwp)

/-! ### The frame buffer -/

/-- R100: append, for every capacity. -/
def Obligations.AppendKeepsOrCounts : Prop :=
  ∀ (p : Params) (smp : Sample) (s : State),
    SameButFrame s (append p smp s) ∧
    (s.fbCount < p.fbCapacity →
      (append p smp s).fbCount = s.fbCount + 1 ∧ (append p smp s).fbOverflow = s.fbOverflow ∧
      (append p smp s).fb.get? s.fbCount = some smp ∧
      ∀ j, j ≠ s.fbCount → (append p smp s).fb.get? j = s.fb.get? j) ∧
    (p.fbCapacity ≤ s.fbCount →
      (append p smp s).fbCount = s.fbCount ∧ (append p smp s).fb = s.fb ∧
      (s.fbOverflow < 0xFFFFFFFF → (append p smp s).fbOverflow.toNat = s.fbOverflow.toNat + 1) ∧
      (s.fbOverflow = 0xFFFFFFFF → (append p smp s).fbOverflow = 0xFFFFFFFF))

/-- R102, the retention law, for every capacity: of A samples appended from an empty frame the first N are kept
verbatim and in order, and the rest are counted, saturating. -/
def Obligations.RetentionLaw : Prop :=
  ∀ (p : Params) (l : List Sample) (s : State), s.fbCount = 0 → s.fbOverflow = 0 →
    (appendAll p l s).fbCount = min l.length p.fbCapacity ∧
    (∀ k, 1 ≤ k → k ≤ min l.length p.fbCapacity → (appendAll p l s).fb.get? (k - 1) = l[k - 1]?) ∧
    (appendAll p l s).fbOverflow.toNat = min (max (l.length - p.fbCapacity) 0) 0xFFFFFFFF

/-! ### The beam -/

/-- SETON across an on/off class completes: INTENSITY is the operand, four dwell samples at the beam's position with
the new power are appended, and nothing else changes (R130, R135). -/
def Obligations.SetonSwitchesTheBeam : Prop :=
  ∀ (i : BitVec 8) (s : State), s.initDone = true → ¬ (i ≠ 0 ↔ s.intensity ≠ 0) →
    ∃ t, exec (.seton i) s = .next t ∧
      Appended Params.hw
        (List.replicate 4 ⟨(s.posX.floor % 4096).toNat, (s.posY.floor % 4096).toNat, i⟩) s t ∧
      SameButFrame { s with intensity := i } t

/-- SETON within an on/off class completes and changes nothing: INTENSITY is not updated (R130, R139). -/
def Obligations.SetonWithinAClassDoesNothing : Prop :=
  ∀ (i : BitVec 8) (s : State), s.initDone = true → (i ≠ 0 ↔ s.intensity ≠ 0) → exec (.seton i) s = .next s

/-- R131: the step count is the least k with (k·m)² ≥ dx² + dy², it is the ceiling of distance/m over the reals, and
it is 0 exactly for a move of no length. -/
def Obligations.StepCountIsLeast : Prop :=
  ∀ (dx dy : Rat) (m : Nat), 0 < m →
    dx ^ 2 + dy ^ 2 ≤ ((steps dx dy m : Rat) * m) ^ 2 ∧
    (∀ k : Nat, dx ^ 2 + dy ^ 2 ≤ ((k : Rat) * m) ^ 2 → steps dx dy m ≤ k) ∧
    ((steps dx dy m : Int) = ⌈Real.sqrt ((dx : Real) ^ 2 + (dy : Real) ^ 2) / m⌉) ∧
    (steps dx dy m = 0 ↔ dx = 0 ∧ dy = 0)

/-- SETPOS in range completes: the interpolation samples and then the settle dwell are appended at the beam's
intensity, the position becomes the target exactly, and nothing else changes (R134, R136). -/
def Obligations.SetposMovesTheBeam : Prop :=
  ∀ (x y : Rat) (s : State), s.initDone = true → 0 ≤ x → x ≤ 4095 → 0 ≤ y → y ≤ 4095 →
    ∃ t, exec (.setpos x y) s = .next t ∧
      (∀ n, n = steps (x - s.posX) (y - s.posY) (if s.intensity ≠ 0 then 5 else 10) →
        Appended Params.hw
          ((List.range' 1 n).map (fun k : Nat =>
              (⟨((s.posX + (x - s.posX) * k / n).floor % 4096).toNat,
                ((s.posY + (y - s.posY) * k / n).floor % 4096).toNat, s.intensity⟩ : Sample)) ++
            List.replicate (if s.intensity ≠ 0 then 2 else 1)
              ⟨x.floor.toNat, y.floor.toNat, s.intensity⟩) s t) ∧
      SameButFrame { s with posX := x, posY := y } t

/-- R137, the step laws, for any parameters: a move appends n interpolation and then d dwell samples; consecutive
exact points, the start included, are at most m apart; no evenly spaced path with fewer points is; and the floored
points are less than m + √2 apart, each axis by less than |d|/n + 1. -/
def Obligations.StepLaws : Prop :=
  ∀ (p : Params) (t : Point) (s : State) (m n : Nat), p.Wf →
    m = (if s.intensity ≠ 0 then p.maxStepOn else p.maxStepOff) → n = steps (t.x - s.posX) (t.y - s.posY) m →
    (∃ l, l.length = n + (if s.intensity ≠ 0 then p.cyclesToStableOn else p.cyclesToStableOff) ∧
      (∀ k, n ≤ k → k < l.length → l[k]? = some (mkSample p t s.intensity)) ∧
      (∀ k, 1 ≤ k → k ≤ n → l[k - 1]? = some (mkSample p (pathPoint ⟨s.posX, s.posY⟩ t n k) s.intensity)) ∧
      Appended p l s (setPosition p t s)) ∧
    (∀ k, 1 ≤ k → k ≤ n →
      dist2 (pathPoint ⟨s.posX, s.posY⟩ t n (k - 1)) (pathPoint ⟨s.posX, s.posY⟩ t n k) =
        ((t.x - s.posX) ^ 2 + (t.y - s.posY) ^ 2) / (n : Rat) ^ 2 ∧
      dist2 (pathPoint ⟨s.posX, s.posY⟩ t n (k - 1)) (pathPoint ⟨s.posX, s.posY⟩ t n k) ≤ (m : Rat) ^ 2) ∧
    (∀ n' : Nat, 1 ≤ n' → ((t.x - s.posX) ^ 2 + (t.y - s.posY) ^ 2) / (n' : Rat) ^ 2 ≤ (m : Rat) ^ 2 → n ≤ n') ∧
    (∀ k, 1 ≤ k → k ≤ n →
      ∀ a b : Point, a = pathPoint ⟨s.posX, s.posY⟩ t n (k - 1) → b = pathPoint ⟨s.posX, s.posY⟩ t n k →
        |(b.x.floor : Rat) - a.x.floor| < |t.x - s.posX| / n + 1 ∧
        |(b.y.floor : Rat) - a.y.floor| < |t.y - s.posY| / n + 1 ∧
        Real.sqrt (((b.x.floor : Real) - a.x.floor) ^ 2 + ((b.y.floor : Real) - a.y.floor) ^ 2) <
          m + Real.sqrt 2)

/-- The largest moves between points in range: 1159 steps lit and 580 dark, from corner to corner (R138). -/
def Obligations.LargestMove : Prop :=
  (∀ a b : Point, inRange Params.hw a = true → inRange Params.hw b = true →
    steps (b.x - a.x) (b.y - a.y) 5 ≤ 1159 ∧ steps (b.x - a.x) (b.y - a.y) 10 ≤ 580) ∧
  steps 4095 4095 5 = 1159 ∧ steps 4095 4095 10 = 580

/-! ### The rasterizer -/

/-- R163: a discontinuous line completes, whichever value RASTER_SETON_ALWAYS has, and appends in order the off
dwell (if the beam was ON), the dark jump and its settle sample, the on dwell (if the colour is not 0), the move
and its settle dwell; the beam ends at p1 with the colour as its intensity, and nothing else changes. -/
def Obligations.DiscontinuousLine : Prop :=
  (∀ (x0 y0 x1 y1 : Rat) (c : BitVec 8) (s : State),
    exec (.line x0 y0 x1 y1 c) s = .next (line Params.hw x0 y0 x1 y1 c s)) ∧
  ∀ (p : Params) (x0 y0 x1 y1 : Rat) (c : BitVec 8) (s : State) (p0 p1 : Point), p.Wf →
    s.initDone = true → p0 = ⟨x0 * s.scale, y0 * s.scale⟩ → p1 = ⟨x1 * s.scale, y1 * s.scale⟩ →
    inRange p p0 = true → inRange p p1 = true → (p.contTol : Rat) ^ 2 < dist2 ⟨s.posX, s.posY⟩ p0 →
    Appended p
      ((if s.intensity ≠ 0 then List.replicate p.cyclesToOff (mkSample p ⟨s.posX, s.posY⟩ 0) else []) ++
        (pathSamples p ⟨s.posX, s.posY⟩ p0 p.maxStepOff 0 ++
          List.replicate p.cyclesToStableOff (mkSample p p0 0)) ++
        (if c ≠ 0 then List.replicate p.cyclesToOn (mkSample p p0 c) else []) ++
        (if c ≠ 0 then
          pathSamples p p0 p1 p.maxStepOn c ++ List.replicate p.cyclesToStableOn (mkSample p p1 c)
        else
          pathSamples p p0 p1 p.maxStepOff c ++ List.replicate p.cyclesToStableOff (mkSample p p1 c)))
      s (line p x0 y0 x1 y1 c s) ∧
    SameButFrame { s with posX := p1.x, posY := p1.y, intensity := c } (line p x0 y0 x1 y1 c s)

/-- A continuous line completes: no jump is made and p0 is not visited; the colour is applied across an on/off class
only (RASTER_SETON_ALWAYS, C2, C3), and the beam moves from where it is to p1 (R160, R161, R164). -/
def Obligations.ContinuousLine : Prop :=
  ∀ (x0 y0 x1 y1 : Rat) (c i : BitVec 8) (s : State) (p0 p1 : Point),
    s.initDone = true → p0 = ⟨x0 * s.scale, y0 * s.scale⟩ → p1 = ⟨x1 * s.scale, y1 * s.scale⟩ →
    inRange Params.hw p0 = true → inRange Params.hw p1 = true → dist2 ⟨s.posX, s.posY⟩ p0 ≤ 1 →
    i = (if (c ≠ 0 ↔ s.intensity ≠ 0) then s.intensity else c) →
    ∃ t, exec (.line x0 y0 x1 y1 c) s = .next t ∧
      Appended Params.hw
        ((if (c ≠ 0 ↔ s.intensity ≠ 0) then []
          else List.replicate 4 (mkSample Params.hw ⟨s.posX, s.posY⟩ c)) ++
          pathSamples Params.hw ⟨s.posX, s.posY⟩ p1 (if i ≠ 0 then 5 else 10) i ++
          List.replicate (if i ≠ 0 then 2 else 1) (mkSample Params.hw p1 i)) s t ∧
      SameButFrame { s with posX := p1.x, posY := p1.y, intensity := i } t

/-- One LINE appends at most 1750 samples, kept and dropped together (R164). -/
def Obligations.LineAppendsAtMost1750 : Prop :=
  ∀ (x0 y0 x1 y1 : Rat) (c : BitVec 8) (s t : State), s.Inv Params.hw →
    exec (.line x0 y0 x1 y1 c) s = .next t →
    t.fbCount + t.fbOverflow.toNat ≤ s.fbCount + s.fbOverflow.toNat + 1750

/-- A line with p0 = p1 = POS appends no interpolation sample: only the on/off dwell of a class change and the
settle dwell, all at the beam's position, which it keeps (R165). -/
def Obligations.ZeroLengthLine : Prop :=
  ∀ (x y : Rat) (c i : BitVec 8) (s : State), s.initDone = true →
    inRange Params.hw ⟨s.posX, s.posY⟩ = true → x * s.scale = s.posX → y * s.scale = s.posY →
    i = (if (c ≠ 0 ↔ s.intensity ≠ 0) then s.intensity else c) →
    ∃ t, exec (.line x y x y c) s = .next t ∧
      Appended Params.hw
        (List.replicate ((if (c ≠ 0 ↔ s.intensity ≠ 0) then 0 else 4) + (if i ≠ 0 then 2 else 1))
          (mkSample Params.hw ⟨s.posX, s.posY⟩ i)) s t ∧
      SameButFrame { s with intensity := i } t

/-! ### INIT -/

/-- INIT with bounds that are not both 0 completes in any state: the sample rate, the ScaleFactor, the device count,
INIT_DONE, the trace, and the answers drawn; the beam, the frame and the error registers stay (R180, R184, R185, R212). Two clauses are the model's: where
the answers come from (script and drawn, log entry 7), and that the three queries leave DIAG_INFO and no CALL_ entry of
their own (log entry 9, DEDUCED; it reads R212's table against the sentence after it). -/
def Obligations.InitConfigures : Prop :=
  ∀ (w h : Rat) (s : State), max w h ≠ 0 →
    (0 < openAnswer s →
      exec (.init w h) s = .next { s with
        sampleRate := 20000
        scale := 4095 / max w h
        devCount := openAnswer s
        initDone := true
        trace := s.trace ++ [.callOpen (openAnswer s),
          .diagInfo (s.script.names.headD (Config.freeName (s.drawn + 1)))
            (s.script.usbs.headD (Config.freeIsUsb (s.drawn + 2)))
            (s.script.firmwares.headD (Config.freeFirmware (s.drawn + 3)))]
        script := { s.script with
          opens := s.script.opens.tail, names := s.script.names.tail, usbs := s.script.usbs.tail,
          firmwares := s.script.firmwares.tail }
        drawn := s.drawn + 4 }) ∧
    (openAnswer s = 0 →
      exec (.init w h) s = .next { s with
        sampleRate := 20000
        scale := 4095 / max w h
        devCount := 0
        initDone := true
        trace := s.trace ++ [.callOpen 0, .diagNoDevice]
        script := { s.script with opens := s.script.opens.tail }
        drawn := s.drawn + 1 })

/-- R182 and R162: after INIT with the raw operands W and H, a coordinate word maps to MAX_COORD · sext(w) / M for
M = max(W, H), which lies in 0..MAX_COORD exactly when 0 ≤ sext(w) ≤ M; scaling has no offset, flip or rounding. -/
def Obligations.ScaleInRawOperands : Prop :=
  ∀ (a b w v : Word) (s t : State) (m : Nat), m = max a.toNat b.toNat → 0 < m →
    exec (.init (uq16 a) (uq16 b)) s = .next t →
    t.scale = 4095 * 65536 / m ∧
    scalePoint t.scale ⟨q16 w, q16 v⟩ = ⟨4095 * (w.toInt : Rat) / m, 4095 * (v.toInt : Rat) / m⟩ ∧
    ((0 ≤ q16 w * t.scale ∧ q16 w * t.scale ≤ 4095) ↔ (0 ≤ w.toInt ∧ w.toInt ≤ m))

/-- R183: with the ScaleFactor of any state in which INIT has completed, scaling a point and dividing back gives the
point exactly. -/
def Obligations.ScalingRoundTrip : Prop :=
  ∀ (a : Point) (s : State), s.Inv Params.hw → s.initDone = true →
    (scalePoint s.scale a).x / s.scale = a.x ∧ (scalePoint s.scale a).y / s.scale = a.y

/-! ### EMIT -/

/-- EMIT of a frame that is not empty, to a device that answers ready, completes: one CALL_STATUS, one CALL_WRITE of
the first FB_COUNT entries in wire form at the sample rate, the warning if samples were lost, both counters 0, and
every other register as before (R106 to R110). Which answers are taken and that script and drawn move on by the two
calls is the model's (log entry 7, DESIGN CHOICE). -/
def Obligations.EmitToAReadySink : Prop :=
  ∀ s : State, s.initDone = true → 0 < s.fbCount → s.fbCount ≤ 131072 → 0 < s.devCount →
    statusAnswer s = .ready →
    exec .emit s = .next { s with
      fbCount := 0
      fbOverflow := 0
      trace := s.trace ++ [.callStatus 0 .ready,
          .callWrite 0 s.sampleRate ⟨true, true⟩ ((List.range' 0 s.fbCount).map fun k => wireOf Params.hw (s.fb.read k))
            s.fbCount (s.script.writes.headD (Config.freeWriteResult (s.drawn + 1)))] ++
        (if s.fbOverflow ≠ 0 then [.warnOverrun s.fbOverflow] else [])
      script := { s.script with statuses := s.script.statuses.tail, writes := s.script.writes.tail }
      drawn := s.drawn + 2 }

/-- R113: a busy device, or none, drops the frame: no CALL_WRITE, the poll only where there is a device, the warning
if samples were lost, both counters 0, and every other register as before. That script and drawn move on by the one poll,
and stay where there is none, is the model's (log entry 7, DESIGN CHOICE). -/
def Obligations.EmitToABusySink : Prop :=
  ∀ s : State, s.initDone = true → 0 < s.fbCount → s.fbCount ≤ 131072 →
    (0 < s.devCount → statusAnswer s = .busy →
      exec .emit s = .next { s with
        fbCount := 0
        fbOverflow := 0
        trace := s.trace ++ [.callStatus 0 .busy] ++
          (if s.fbOverflow ≠ 0 then [.warnOverrun s.fbOverflow] else [])
        script := { s.script with statuses := s.script.statuses.tail }
        drawn := s.drawn + 1 }) ∧
    (s.devCount = 0 →
      exec .emit s = .next { s with
        fbCount := 0
        fbOverflow := 0
        trace := s.trace ++ (if s.fbOverflow ≠ 0 then [.warnOverrun s.fbOverflow] else []) })

/-- R111: EMIT of an empty frame completes and changes nothing; FB_OVERFLOW is then 0 as well. -/
def Obligations.EmitOfAnEmptyFrame : Prop :=
  ∀ s : State, s.initDone = true → s.fbCount = 0 →
    exec .emit s = .next s ∧ (s.Inv Params.hw → s.fbOverflow = 0)

/-- R110 and R112: whatever the device answers, EMIT of a frame that is not empty ends with both counters 0, the
entries keep their values, and the beam and the configuration stay. -/
def Obligations.EmitResetsCountersAndLeavesTheBeam : Prop :=
  ∀ s : State, s.initDone = true → 0 < s.fbCount → s.fbCount ≤ 131072 →
    ∃ t, exec .emit s = .next t ∧ t.fbCount = 0 ∧ t.fbOverflow = 0 ∧ (∀ j, t.fb.get? j = s.fb.get? j) ∧
      t.posX = s.posX ∧ t.posY = s.posY ∧ t.intensity = s.intensity ∧ t.sampleRate = s.sampleRate ∧
      t.scale = s.scale

/-- R109: EMIT of a frame that is not empty warns exactly when samples were lost, with their number, once and after
any CALL_WRITE, whether or not the sink was ready and whatever writeFrame answered. -/
def Obligations.OverrunWarning : Prop :=
  ∀ s t : State, s.initDone = true → 0 < s.fbCount → exec .emit s = .next t →
    (s.fbOverflow ≠ 0 → ∃ before, newEvents s t = before ++ [.warnOverrun s.fbOverflow] ∧
      ∀ n, Event.warnOverrun n ∉ before) ∧
    (s.fbOverflow = 0 → ∀ n, Event.warnOverrun n ∉ newEvents s t)

/-- R107: with a device the poll admits both answers at every EMIT, and the frame is handed over exactly on ready;
with no device there is no poll and no hand-over. -/
def Obligations.SinkReadinessIsFree : Prop :=
  ∀ s : State, s.initDone = true → 0 < s.fbCount → s.fbCount ≤ 131072 →
    (0 < s.devCount → ∀ r : DevStatus, ∃ sc t, exec .emit { s with script := sc } = .next t ∧
      Event.callStatus 0 r ∈ newEvents s t ∧
      ((∃ rate fl l n res, Event.callWrite 0 rate fl l n res ∈ newEvents s t) ↔ r = .ready)) ∧
    (s.devCount = 0 → ∃ t, exec .emit s = .next t ∧
      ∀ ev ∈ newEvents s t, ev = .warnOverrun s.fbOverflow)

/-- EMIT is not idempotent, but a second EMIT straight after one that completed does nothing (R58). -/
def Obligations.SecondEmitDoesNothing : Prop :=
  ∀ s t : State, s.initDone = true → exec .emit s = .next t → exec .emit t = .next t

/-- EMIT with FB_COUNT beyond the buffer, which no run reaches, stops: the frame would be read outside the frame
buffer's entries (R12, R50; the fault is the model's, log entry 5). -/
def Obligations.EmitOutsideTheBufferStops : Prop :=
  ∀ s : State, s.initDone = true → 131072 < s.fbCount → exec .emit s = .fault .frameIndexOutOfRange

/-- A frame that is handed over holds only samples that were appended: no entry of it is unspecified (R59). -/
def Obligations.EmittedFramesWereWritten : Prop :=
  ∀ (s t : State) (rate : Word) (fl : WriteFlags) (l : List WireSample) (n : Nat) (r : WriteResult),
    s.Inv Params.hw → exec .emit s = .next t → Event.callWrite 0 rate fl l n r ∈ newEvents s t →
    n = s.fbCount ∧ l.length = n ∧ ∀ k, k < n → (s.fb.get? k).map (wireOf Params.hw) = l[k]?

/-- Stale entries are unobservable (R59): two states that differ only in frame-buffer entries at or past FB_COUNT run
every command, under the same Device Session answers (log entry 7), to states that again differ only so, with the same
registers and the same trace. -/
def Obligations.StaleEntriesAreUnobservable : Prop :=
  ∀ (i : Instr) (s t : State) (m : Memory),
    (∀ j, j < s.fbCount → m.get? j = s.fb.get? j) → exec i s = .next t →
    ∃ m', exec i { s with fb := m } = .next { t with fb := m' } ∧ ∀ j, j < t.fbCount → m'.get? j = t.fb.get? j

/-! ### Whole-machine rules -/

/-- R21's "written by" column, as frames over every command: who writes which register; that no command itself touches
CWP, PEND or the host's words (R75, R76: the step does); and that only INIT and EMIT call the Device Session or emit an
event that is no ERROR (R210, R212). That a command without a call leaves script and drawn alone is said of the
model's own fields (log entry 7). -/
def Obligations.RegistersAreWrittenByTheirCommandsOnly : Prop :=
  ∀ (i : Instr) (s t : State), exec i s = .next t →
    (t.cwp = s.cwp ∧ t.pend = s.pend ∧ t.input = s.input) ∧
    ((∀ w h, i ≠ .init w h) →
      t.sampleRate = s.sampleRate ∧ t.scale = s.scale ∧ t.initDone = s.initDone ∧ t.devCount = s.devCount) ∧
    ((∀ x y, i ≠ .setpos x y) → (∀ x0 y0 x1 y1 c, i ≠ .line x0 y0 x1 y1 c) →
      t.posX = s.posX ∧ t.posY = s.posY) ∧
    ((∀ j, i ≠ .seton j) → (∀ x0 y0 x1 y1 c, i ≠ .line x0 y0 x1 y1 c) → t.intensity = s.intensity) ∧
    ((∃ w h, i = .init w h) → t.fbCount = s.fbCount ∧ t.fbOverflow = s.fbOverflow ∧ t.fb = s.fb) ∧
    (i = .emit → t.fb = s.fb) ∧
    ((∀ w h, i ≠ .init w h) → i ≠ .emit →
      t.script = s.script ∧ t.drawn = s.drawn ∧ ∀ ev ∈ newEvents s t, ev.isError = true)

/-- Every command completes in every state with FB_COUNT ≤ FB_CAPACITY: nothing blocks and nothing in the CORE is
fatal (R200, R239). -/
def Obligations.EveryCommandCompletes : Prop :=
  ∀ (i : Instr) (s : State), s.fbCount ≤ 131072 → ∃ t, exec i s = .next t

/-- The trace only grows, and the words waiting only shrink, by whole commands or into PEND (R212, R75). That drawn
never falls is said of the model's own counter (log entry 7, DESIGN CHOICE). -/
def Obligations.TraceOnlyGrows : Prop :=
  ∀ s t : State, step s = .next t →
    s.trace <+: t.trace ∧ t.input <:+ s.input ∧ s.drawn ≤ t.drawn

/-! ### Any parameters (R7) -/

/-- R7: this hardware's parameters have the table's values and meet its constraints, and the machine is the one that
takes the parameters as an argument, at these values. -/
def Obligations.HardwareParameters : Prop :=
  Params.hw = ⟨131072, 4095, 255, 4, 4, 2, 1, 5, 10, 1, 20000, 0, true⟩ ∧ Params.hw.Wf ∧
  (∀ (i : Instr) (s : State), exec i s = execWith Params.hw i s) ∧
  ∀ s : State, step s = stepWith Params.hw s

/-- At any parameters, when PEND and the host's next words together are a well-formed command, in whichever split, the
step is that command's effect at these parameters, retired; and it answers a next state wherever FB_COUNT is at most
FB_CAPACITY. -/
def Obligations.StepRunsTheDecodedCommandAtAnyParameters : Prop :=
  ∀ (p : Params) (i : Instr) (pre post rest : List Word) (s : State), i.WellFormed = true →
    encode i = pre ++ post → post ≠ [] → s.pend = pre → s.input = post ++ rest →
    stepWith p s = retireOutcome (encode i).length (execWith p i { s with pend := encode i, input := rest }) ∧
    (s.fbCount ≤ p.fbCapacity → ∃ t, stepWith p s = .next t)

/-- R37 at any parameters (R7): every step keeps the invariants, from any state that meets them. -/
def Obligations.StepKeepsInvariantsAtAnyParameters : Prop :=
  ∀ (p : Params) (s t : State), p.Wf → s.Inv p → stepWith p s = .next t → t.Inv p

/-- R8: CW is ceil(log2(MAX_COORD + 1)), the least width that holds every coordinate, and FB_COUNT's width is
ceil(log2(FB_CAPACITY + 1)); every sample formed has coordinate fields of CW bits, and FB_COUNT and every index fit
their widths; this hardware's widths are 12, 18 and 17. -/
def Obligations.DerivedWidths : Prop :=
  (coordWidth Params.hw = 12 ∧ countWidth Params.hw = 18 ∧ indexWidth Params.hw = 17) ∧
  ∀ p : Params, p.Wf →
    (coordWidth p : Int) = ⌈Real.logb 2 (p.maxCoord + 1)⌉ ∧ (countWidth p : Int) = ⌈Real.logb 2 (p.fbCapacity + 1)⌉ ∧
    (p.maxCoord < 2 ^ coordWidth p ∧ ∀ k, p.maxCoord < 2 ^ k → coordWidth p ≤ k) ∧
    (∀ (a : Point) (i : BitVec 8),
      (mkSample p a i).x < 2 ^ coordWidth p ∧ (mkSample p a i).y < 2 ^ coordWidth p) ∧
    ∀ s : State, s.Inv p → s.fbCount < 2 ^ countWidth p ∧ ∀ e ∈ s.fb, e.1 < 2 ^ indexWidth p

/-- The wire form at any parameters: R53's fields in R53's order with coordinate fields of CW bits (R8), and bytes by
R54's rule. The spec gives the layout for CW = 12; that the other fields follow on is the model's reading (log
entry 1). -/
def Obligations.WireFormAtAnyParameters : Prop :=
  ∀ (p : Params) (s : Sample) (n : Nat), n = coordWidth p →
    (wireOf p s).width = 24 + 2 * n ∧
    (wireOf p s).word.extractLsb' 0 n = BitVec.ofNat n s.x ∧
    (wireOf p s).word.extractLsb' n n = BitVec.ofNat n s.y ∧
    (wireOf p s).word.extractLsb' (2 * n) 8 = s.p ∧
    (wireOf p s).word.extractLsb' (2 * n + 8) 8 = 0 ∧ (wireOf p s).word.extractLsb' (2 * n + 16) 8 = 0 ∧
    (wireBytes (wireOf p s)).length = (24 + 2 * n + 7) / 8
end

