-- ==== Sys2Proof/Laws/State.lean ====
section
/-!
SUPPORT. One lemma per field per update of State, so that no proof unfolds a record update: what each named
operation leaves unchanged, and what it writes.
-/

namespace Sys2Proof.Machine

open Sys2Proof

/-! ### setPos -/

@[simp] theorem setPos_posX (t : Point) (s : State) : (s.setPos t).posX = t.x := rfl
@[simp] theorem setPos_posY (t : Point) (s : State) : (s.setPos t).posY = t.y := rfl
@[simp] theorem setPos_intensity (t : Point) (s : State) : (s.setPos t).intensity = s.intensity := rfl
@[simp] theorem setPos_sampleRate (t : Point) (s : State) : (s.setPos t).sampleRate = s.sampleRate := rfl
@[simp] theorem setPos_scale (t : Point) (s : State) : (s.setPos t).scale = s.scale := rfl
@[simp] theorem setPos_initDone (t : Point) (s : State) : (s.setPos t).initDone = s.initDone := rfl
@[simp] theorem setPos_devCount (t : Point) (s : State) : (s.setPos t).devCount = s.devCount := rfl
@[simp] theorem setPos_fbCount (t : Point) (s : State) : (s.setPos t).fbCount = s.fbCount := rfl
@[simp] theorem setPos_fbOverflow (t : Point) (s : State) : (s.setPos t).fbOverflow = s.fbOverflow := rfl
@[simp] theorem setPos_status (t : Point) (s : State) : (s.setPos t).status = s.status := rfl
@[simp] theorem setPos_firstErrCause (t : Point) (s : State) : (s.setPos t).firstErrCause = s.firstErrCause := rfl
@[simp] theorem setPos_firstErrCwp (t : Point) (s : State) : (s.setPos t).firstErrCwp = s.firstErrCwp := rfl
@[simp] theorem setPos_cwp (t : Point) (s : State) : (s.setPos t).cwp = s.cwp := rfl
@[simp] theorem setPos_pend (t : Point) (s : State) : (s.setPos t).pend = s.pend := rfl
@[simp] theorem setPos_fb (t : Point) (s : State) : (s.setPos t).fb = s.fb := rfl
@[simp] theorem setPos_input (t : Point) (s : State) : (s.setPos t).input = s.input := rfl
@[simp] theorem setPos_trace (t : Point) (s : State) : (s.setPos t).trace = s.trace := rfl
@[simp] theorem setPos_script (t : Point) (s : State) : (s.setPos t).script = s.script := rfl
@[simp] theorem setPos_drawn (t : Point) (s : State) : (s.setPos t).drawn = s.drawn := rfl

/-! ### retire -/

@[simp] theorem retire_posX (n : Nat) (s : State) : (s.retire n).posX = s.posX := rfl
@[simp] theorem retire_posY (n : Nat) (s : State) : (s.retire n).posY = s.posY := rfl
@[simp] theorem retire_intensity (n : Nat) (s : State) : (s.retire n).intensity = s.intensity := rfl
@[simp] theorem retire_sampleRate (n : Nat) (s : State) : (s.retire n).sampleRate = s.sampleRate := rfl
@[simp] theorem retire_scale (n : Nat) (s : State) : (s.retire n).scale = s.scale := rfl
@[simp] theorem retire_initDone (n : Nat) (s : State) : (s.retire n).initDone = s.initDone := rfl
@[simp] theorem retire_devCount (n : Nat) (s : State) : (s.retire n).devCount = s.devCount := rfl
@[simp] theorem retire_fbCount (n : Nat) (s : State) : (s.retire n).fbCount = s.fbCount := rfl
@[simp] theorem retire_fbOverflow (n : Nat) (s : State) : (s.retire n).fbOverflow = s.fbOverflow := rfl
@[simp] theorem retire_status (n : Nat) (s : State) : (s.retire n).status = s.status := rfl
@[simp] theorem retire_firstErrCause (n : Nat) (s : State) : (s.retire n).firstErrCause = s.firstErrCause := rfl
@[simp] theorem retire_firstErrCwp (n : Nat) (s : State) : (s.retire n).firstErrCwp = s.firstErrCwp := rfl
@[simp] theorem retire_cwp (n : Nat) (s : State) : (s.retire n).cwp = s.cwp + BitVec.ofNat 32 n := rfl
@[simp] theorem retire_pend (n : Nat) (s : State) : (s.retire n).pend = [] := rfl
@[simp] theorem retire_fb (n : Nat) (s : State) : (s.retire n).fb = s.fb := rfl
@[simp] theorem retire_input (n : Nat) (s : State) : (s.retire n).input = s.input := rfl
@[simp] theorem retire_trace (n : Nat) (s : State) : (s.retire n).trace = s.trace := rfl
@[simp] theorem retire_script (n : Nat) (s : State) : (s.retire n).script = s.script := rfl
@[simp] theorem retire_drawn (n : Nat) (s : State) : (s.retire n).drawn = s.drawn := rfl

/-! ### sendCommand -/

@[simp] theorem sendCommand_posX (ws : List Word) (s : State) : (s.sendCommand ws).posX = s.posX := rfl
@[simp] theorem sendCommand_posY (ws : List Word) (s : State) : (s.sendCommand ws).posY = s.posY := rfl
@[simp] theorem sendCommand_intensity (ws : List Word) (s : State) : (s.sendCommand ws).intensity = s.intensity := rfl
@[simp] theorem sendCommand_sampleRate (ws : List Word) (s : State) : (s.sendCommand ws).sampleRate = s.sampleRate := rfl
@[simp] theorem sendCommand_scale (ws : List Word) (s : State) : (s.sendCommand ws).scale = s.scale := rfl
@[simp] theorem sendCommand_initDone (ws : List Word) (s : State) : (s.sendCommand ws).initDone = s.initDone := rfl
@[simp] theorem sendCommand_devCount (ws : List Word) (s : State) : (s.sendCommand ws).devCount = s.devCount := rfl
@[simp] theorem sendCommand_fbCount (ws : List Word) (s : State) : (s.sendCommand ws).fbCount = s.fbCount := rfl
@[simp] theorem sendCommand_fbOverflow (ws : List Word) (s : State) : (s.sendCommand ws).fbOverflow = s.fbOverflow := rfl
@[simp] theorem sendCommand_status (ws : List Word) (s : State) : (s.sendCommand ws).status = s.status := rfl
@[simp] theorem sendCommand_firstErrCause (ws : List Word) (s : State) : (s.sendCommand ws).firstErrCause = s.firstErrCause := rfl
@[simp] theorem sendCommand_firstErrCwp (ws : List Word) (s : State) : (s.sendCommand ws).firstErrCwp = s.firstErrCwp := rfl
@[simp] theorem sendCommand_cwp (ws : List Word) (s : State) : (s.sendCommand ws).cwp = s.cwp := rfl
@[simp] theorem sendCommand_pend (ws : List Word) (s : State) : (s.sendCommand ws).pend = [] := rfl
@[simp] theorem sendCommand_fb (ws : List Word) (s : State) : (s.sendCommand ws).fb = s.fb := rfl
@[simp] theorem sendCommand_input (ws : List Word) (s : State) : (s.sendCommand ws).input = firstCommand ws ++ s.input := rfl
@[simp] theorem sendCommand_trace (ws : List Word) (s : State) : (s.sendCommand ws).trace = s.trace := rfl
@[simp] theorem sendCommand_script (ws : List Word) (s : State) : (s.sendCommand ws).script = s.script := rfl
@[simp] theorem sendCommand_drawn (ws : List Word) (s : State) : (s.sendCommand ws).drawn = s.drawn := rfl

/-! ### emitEvent -/

@[simp] theorem emitEvent_posX (e : Event) (s : State) : (emitEvent e s).posX = s.posX := rfl
@[simp] theorem emitEvent_posY (e : Event) (s : State) : (emitEvent e s).posY = s.posY := rfl
@[simp] theorem emitEvent_intensity (e : Event) (s : State) : (emitEvent e s).intensity = s.intensity := rfl
@[simp] theorem emitEvent_sampleRate (e : Event) (s : State) : (emitEvent e s).sampleRate = s.sampleRate := rfl
@[simp] theorem emitEvent_scale (e : Event) (s : State) : (emitEvent e s).scale = s.scale := rfl
@[simp] theorem emitEvent_initDone (e : Event) (s : State) : (emitEvent e s).initDone = s.initDone := rfl
@[simp] theorem emitEvent_devCount (e : Event) (s : State) : (emitEvent e s).devCount = s.devCount := rfl
@[simp] theorem emitEvent_fbCount (e : Event) (s : State) : (emitEvent e s).fbCount = s.fbCount := rfl
@[simp] theorem emitEvent_fbOverflow (e : Event) (s : State) : (emitEvent e s).fbOverflow = s.fbOverflow := rfl
@[simp] theorem emitEvent_status (e : Event) (s : State) : (emitEvent e s).status = s.status := rfl
@[simp] theorem emitEvent_firstErrCause (e : Event) (s : State) : (emitEvent e s).firstErrCause = s.firstErrCause := rfl
@[simp] theorem emitEvent_firstErrCwp (e : Event) (s : State) : (emitEvent e s).firstErrCwp = s.firstErrCwp := rfl
@[simp] theorem emitEvent_cwp (e : Event) (s : State) : (emitEvent e s).cwp = s.cwp := rfl
@[simp] theorem emitEvent_pend (e : Event) (s : State) : (emitEvent e s).pend = s.pend := rfl
@[simp] theorem emitEvent_fb (e : Event) (s : State) : (emitEvent e s).fb = s.fb := rfl
@[simp] theorem emitEvent_input (e : Event) (s : State) : (emitEvent e s).input = s.input := rfl
@[simp] theorem emitEvent_trace (e : Event) (s : State) : (emitEvent e s).trace = s.trace ++ [e] := rfl
@[simp] theorem emitEvent_script (e : Event) (s : State) : (emitEvent e s).script = s.script := rfl
@[simp] theorem emitEvent_drawn (e : Event) (s : State) : (emitEvent e s).drawn = s.drawn := rfl

/-! ### callOpen -/

@[simp] theorem callOpen_posX (s : State) : (callOpen s).posX = s.posX := rfl
@[simp] theorem callOpen_posY (s : State) : (callOpen s).posY = s.posY := rfl
@[simp] theorem callOpen_intensity (s : State) : (callOpen s).intensity = s.intensity := rfl
@[simp] theorem callOpen_sampleRate (s : State) : (callOpen s).sampleRate = s.sampleRate := rfl
@[simp] theorem callOpen_scale (s : State) : (callOpen s).scale = s.scale := rfl
@[simp] theorem callOpen_initDone (s : State) : (callOpen s).initDone = s.initDone := rfl
@[simp] theorem callOpen_devCount (s : State) : (callOpen s).devCount = openAnswer s := rfl
@[simp] theorem callOpen_fbCount (s : State) : (callOpen s).fbCount = s.fbCount := rfl
@[simp] theorem callOpen_fbOverflow (s : State) : (callOpen s).fbOverflow = s.fbOverflow := rfl
@[simp] theorem callOpen_status (s : State) : (callOpen s).status = s.status := rfl
@[simp] theorem callOpen_firstErrCause (s : State) : (callOpen s).firstErrCause = s.firstErrCause := rfl
@[simp] theorem callOpen_firstErrCwp (s : State) : (callOpen s).firstErrCwp = s.firstErrCwp := rfl
@[simp] theorem callOpen_cwp (s : State) : (callOpen s).cwp = s.cwp := rfl
@[simp] theorem callOpen_pend (s : State) : (callOpen s).pend = s.pend := rfl
@[simp] theorem callOpen_fb (s : State) : (callOpen s).fb = s.fb := rfl
@[simp] theorem callOpen_input (s : State) : (callOpen s).input = s.input := rfl
@[simp] theorem callOpen_trace (s : State) : (callOpen s).trace = s.trace ++ [.callOpen (openAnswer s)] := rfl
@[simp] theorem callOpen_script (s : State) : (callOpen s).script = { s.script with opens := s.script.opens.tail } := rfl
@[simp] theorem callOpen_drawn (s : State) : (callOpen s).drawn = s.drawn + 1 := rfl

/-! ### queryInfo -/

@[simp] theorem queryInfo_posX (s : State) : (queryInfo s).posX = s.posX := rfl
@[simp] theorem queryInfo_posY (s : State) : (queryInfo s).posY = s.posY := rfl
@[simp] theorem queryInfo_intensity (s : State) : (queryInfo s).intensity = s.intensity := rfl
@[simp] theorem queryInfo_sampleRate (s : State) : (queryInfo s).sampleRate = s.sampleRate := rfl
@[simp] theorem queryInfo_scale (s : State) : (queryInfo s).scale = s.scale := rfl
@[simp] theorem queryInfo_initDone (s : State) : (queryInfo s).initDone = s.initDone := rfl
@[simp] theorem queryInfo_devCount (s : State) : (queryInfo s).devCount = s.devCount := rfl
@[simp] theorem queryInfo_fbCount (s : State) : (queryInfo s).fbCount = s.fbCount := rfl
@[simp] theorem queryInfo_fbOverflow (s : State) : (queryInfo s).fbOverflow = s.fbOverflow := rfl
@[simp] theorem queryInfo_status (s : State) : (queryInfo s).status = s.status := rfl
@[simp] theorem queryInfo_firstErrCause (s : State) : (queryInfo s).firstErrCause = s.firstErrCause := rfl
@[simp] theorem queryInfo_firstErrCwp (s : State) : (queryInfo s).firstErrCwp = s.firstErrCwp := rfl
@[simp] theorem queryInfo_cwp (s : State) : (queryInfo s).cwp = s.cwp := rfl
@[simp] theorem queryInfo_pend (s : State) : (queryInfo s).pend = s.pend := rfl
@[simp] theorem queryInfo_fb (s : State) : (queryInfo s).fb = s.fb := rfl
@[simp] theorem queryInfo_input (s : State) : (queryInfo s).input = s.input := rfl
@[simp] theorem queryInfo_trace (s : State) : (queryInfo s).trace = s.trace ++ [.diagInfo (nameAnswer s) (usbAnswer s) (firmwareAnswer s)] := rfl
@[simp] theorem queryInfo_drawn (s : State) : (queryInfo s).drawn = s.drawn + 3 := rfl

/-! ### callStatus -/

@[simp] theorem callStatus_posX (p : Params) (s : State) : (callStatus p s).posX = s.posX := rfl
@[simp] theorem callStatus_posY (p : Params) (s : State) : (callStatus p s).posY = s.posY := rfl
@[simp] theorem callStatus_intensity (p : Params) (s : State) : (callStatus p s).intensity = s.intensity := rfl
@[simp] theorem callStatus_sampleRate (p : Params) (s : State) : (callStatus p s).sampleRate = s.sampleRate := rfl
@[simp] theorem callStatus_scale (p : Params) (s : State) : (callStatus p s).scale = s.scale := rfl
@[simp] theorem callStatus_initDone (p : Params) (s : State) : (callStatus p s).initDone = s.initDone := rfl
@[simp] theorem callStatus_devCount (p : Params) (s : State) : (callStatus p s).devCount = s.devCount := rfl
@[simp] theorem callStatus_fbCount (p : Params) (s : State) : (callStatus p s).fbCount = s.fbCount := rfl
@[simp] theorem callStatus_fbOverflow (p : Params) (s : State) : (callStatus p s).fbOverflow = s.fbOverflow := rfl
@[simp] theorem callStatus_status (p : Params) (s : State) : (callStatus p s).status = s.status := rfl
@[simp] theorem callStatus_firstErrCause (p : Params) (s : State) : (callStatus p s).firstErrCause = s.firstErrCause := rfl
@[simp] theorem callStatus_firstErrCwp (p : Params) (s : State) : (callStatus p s).firstErrCwp = s.firstErrCwp := rfl
@[simp] theorem callStatus_cwp (p : Params) (s : State) : (callStatus p s).cwp = s.cwp := rfl
@[simp] theorem callStatus_pend (p : Params) (s : State) : (callStatus p s).pend = s.pend := rfl
@[simp] theorem callStatus_fb (p : Params) (s : State) : (callStatus p s).fb = s.fb := rfl
@[simp] theorem callStatus_input (p : Params) (s : State) : (callStatus p s).input = s.input := rfl
@[simp] theorem callStatus_trace (p : Params) (s : State) : (callStatus p s).trace = s.trace ++ [.callStatus p.deviceIndex (statusAnswer s)] := rfl
@[simp] theorem callStatus_script (p : Params) (s : State) : (callStatus p s).script = { s.script with statuses := s.script.statuses.tail } := rfl
@[simp] theorem callStatus_drawn (p : Params) (s : State) : (callStatus p s).drawn = s.drawn + 1 := rfl

/-! ### callWrite -/

@[simp] theorem callWrite_posX (p : Params) (l : List Sample) (s : State) : (callWrite p l s).posX = s.posX := rfl
@[simp] theorem callWrite_posY (p : Params) (l : List Sample) (s : State) : (callWrite p l s).posY = s.posY := rfl
@[simp] theorem callWrite_intensity (p : Params) (l : List Sample) (s : State) : (callWrite p l s).intensity = s.intensity := rfl
@[simp] theorem callWrite_sampleRate (p : Params) (l : List Sample) (s : State) : (callWrite p l s).sampleRate = s.sampleRate := rfl
@[simp] theorem callWrite_scale (p : Params) (l : List Sample) (s : State) : (callWrite p l s).scale = s.scale := rfl
@[simp] theorem callWrite_initDone (p : Params) (l : List Sample) (s : State) : (callWrite p l s).initDone = s.initDone := rfl
@[simp] theorem callWrite_devCount (p : Params) (l : List Sample) (s : State) : (callWrite p l s).devCount = s.devCount := rfl
@[simp] theorem callWrite_fbCount (p : Params) (l : List Sample) (s : State) : (callWrite p l s).fbCount = s.fbCount := rfl
@[simp] theorem callWrite_fbOverflow (p : Params) (l : List Sample) (s : State) : (callWrite p l s).fbOverflow = s.fbOverflow := rfl
@[simp] theorem callWrite_status (p : Params) (l : List Sample) (s : State) : (callWrite p l s).status = s.status := rfl
@[simp] theorem callWrite_firstErrCause (p : Params) (l : List Sample) (s : State) : (callWrite p l s).firstErrCause = s.firstErrCause := rfl
@[simp] theorem callWrite_firstErrCwp (p : Params) (l : List Sample) (s : State) : (callWrite p l s).firstErrCwp = s.firstErrCwp := rfl
@[simp] theorem callWrite_cwp (p : Params) (l : List Sample) (s : State) : (callWrite p l s).cwp = s.cwp := rfl
@[simp] theorem callWrite_pend (p : Params) (l : List Sample) (s : State) : (callWrite p l s).pend = s.pend := rfl
@[simp] theorem callWrite_fb (p : Params) (l : List Sample) (s : State) : (callWrite p l s).fb = s.fb := rfl
@[simp] theorem callWrite_input (p : Params) (l : List Sample) (s : State) : (callWrite p l s).input = s.input := rfl
@[simp] theorem callWrite_script (p : Params) (l : List Sample) (s : State) : (callWrite p l s).script = { s.script with writes := s.script.writes.tail } := rfl
@[simp] theorem callWrite_drawn (p : Params) (l : List Sample) (s : State) : (callWrite p l s).drawn = s.drawn + 1 := rfl

/-! ### raise -/

@[simp] theorem raise_posX (e : ErrCond) (s : State) : (raise e s).posX = s.posX := rfl
@[simp] theorem raise_posY (e : ErrCond) (s : State) : (raise e s).posY = s.posY := rfl
@[simp] theorem raise_intensity (e : ErrCond) (s : State) : (raise e s).intensity = s.intensity := rfl
@[simp] theorem raise_sampleRate (e : ErrCond) (s : State) : (raise e s).sampleRate = s.sampleRate := rfl
@[simp] theorem raise_scale (e : ErrCond) (s : State) : (raise e s).scale = s.scale := rfl
@[simp] theorem raise_initDone (e : ErrCond) (s : State) : (raise e s).initDone = s.initDone := rfl
@[simp] theorem raise_devCount (e : ErrCond) (s : State) : (raise e s).devCount = s.devCount := rfl
@[simp] theorem raise_fbCount (e : ErrCond) (s : State) : (raise e s).fbCount = s.fbCount := rfl
@[simp] theorem raise_fbOverflow (e : ErrCond) (s : State) : (raise e s).fbOverflow = s.fbOverflow := rfl
@[simp] theorem raise_status (e : ErrCond) (s : State) : (raise e s).status = s.status ||| e.mask := rfl
@[simp] theorem raise_firstErrCause (e : ErrCond) (s : State) : (raise e s).firstErrCause = if s.firstErrCause = 0 then e.code else s.firstErrCause := rfl
@[simp] theorem raise_firstErrCwp (e : ErrCond) (s : State) : (raise e s).firstErrCwp = if s.firstErrCause = 0 then s.cwp else s.firstErrCwp := rfl
@[simp] theorem raise_cwp (e : ErrCond) (s : State) : (raise e s).cwp = s.cwp := rfl
@[simp] theorem raise_pend (e : ErrCond) (s : State) : (raise e s).pend = s.pend := rfl
@[simp] theorem raise_fb (e : ErrCond) (s : State) : (raise e s).fb = s.fb := rfl
@[simp] theorem raise_input (e : ErrCond) (s : State) : (raise e s).input = s.input := rfl
@[simp] theorem raise_trace (e : ErrCond) (s : State) : (raise e s).trace = s.trace ++ [.error e.code s.cwp] := rfl
@[simp] theorem raise_script (e : ErrCond) (s : State) : (raise e s).script = s.script := rfl
@[simp] theorem raise_drawn (e : ErrCond) (s : State) : (raise e s).drawn = s.drawn := rfl

/-! ### append and appendAll touch the frame buffer and its counters only -/

theorem append_room {p : Params} {smp : Sample} {s : State} (h : s.fbCount < p.fbCapacity) :
    append p smp s = { s with fb := s.fb.write s.fbCount smp, fbCount := s.fbCount + 1 } := if_pos h

theorem append_full {p : Params} {smp : Sample} {s : State} (h : ¬ s.fbCount < p.fbCapacity)
    (h' : s.fbOverflow < 0xFFFFFFFF) : append p smp s = { s with fbOverflow := s.fbOverflow + 1 } :=
  (if_neg h).trans (if_pos h')

theorem append_saturated {p : Params} {smp : Sample} {s : State} (h : ¬ s.fbCount < p.fbCapacity)
    (h' : ¬ s.fbOverflow < 0xFFFFFFFF) : append p smp s = s :=
  (if_neg h).trans (if_neg h')

theorem append_sameButFrame (p : Params) (smp : Sample) (s : State) : SameButFrame s (append p smp s) := by
  unfold SameButFrame append
  split
  · rfl
  · split <;> rfl

theorem SameButFrame.refl (s : State) : SameButFrame s s := rfl

theorem SameButFrame.trans {s t u : State} (h : SameButFrame s t) (h' : SameButFrame t u) : SameButFrame s u := by
  unfold SameButFrame at *
  rw [← h, ← h']

theorem appendAll_nil (p : Params) (s : State) : appendAll p [] s = s := rfl

theorem appendAll_cons (p : Params) (smp : Sample) (l : List Sample) (s : State) :
    appendAll p (smp :: l) s = appendAll p l (append p smp s) := rfl

theorem appendAll_append (p : Params) (l l' : List Sample) (s : State) :
    appendAll p (l ++ l') s = appendAll p l' (appendAll p l s) := by
  simp [appendAll, List.foldl_append]

theorem appendAll_sameButFrame (p : Params) (l : List Sample) (s : State) :
    SameButFrame s (appendAll p l s) := by
  induction l generalizing s with
  | nil => exact .refl s
  | cons smp l ih => exact (append_sameButFrame p smp s).trans (ih _)

theorem SameButFrame.posX {s t : State} (h : SameButFrame s t) : t.posX = s.posX := by rw [← h]
theorem SameButFrame.posY {s t : State} (h : SameButFrame s t) : t.posY = s.posY := by rw [← h]
theorem SameButFrame.intensity {s t : State} (h : SameButFrame s t) : t.intensity = s.intensity := by rw [← h]
theorem SameButFrame.sampleRate {s t : State} (h : SameButFrame s t) : t.sampleRate = s.sampleRate := by rw [← h]
theorem SameButFrame.scale {s t : State} (h : SameButFrame s t) : t.scale = s.scale := by rw [← h]
theorem SameButFrame.initDone {s t : State} (h : SameButFrame s t) : t.initDone = s.initDone := by rw [← h]
theorem SameButFrame.devCount {s t : State} (h : SameButFrame s t) : t.devCount = s.devCount := by rw [← h]
theorem SameButFrame.status {s t : State} (h : SameButFrame s t) : t.status = s.status := by rw [← h]
theorem SameButFrame.firstErrCause {s t : State} (h : SameButFrame s t) : t.firstErrCause = s.firstErrCause := by rw [← h]
theorem SameButFrame.firstErrCwp {s t : State} (h : SameButFrame s t) : t.firstErrCwp = s.firstErrCwp := by rw [← h]
theorem SameButFrame.cwp {s t : State} (h : SameButFrame s t) : t.cwp = s.cwp := by rw [← h]
theorem SameButFrame.pend {s t : State} (h : SameButFrame s t) : t.pend = s.pend := by rw [← h]
theorem SameButFrame.input {s t : State} (h : SameButFrame s t) : t.input = s.input := by rw [← h]
theorem SameButFrame.trace {s t : State} (h : SameButFrame s t) : t.trace = s.trace := by rw [← h]
theorem SameButFrame.script {s t : State} (h : SameButFrame s t) : t.script = s.script := by rw [← h]
theorem SameButFrame.drawn {s t : State} (h : SameButFrame s t) : t.drawn = s.drawn := by rw [← h]

@[simp] theorem append_posX (p : Params) (smp : Sample) (s : State) : (append p smp s).posX = s.posX :=
  (append_sameButFrame p smp s).posX
@[simp] theorem append_posY (p : Params) (smp : Sample) (s : State) : (append p smp s).posY = s.posY :=
  (append_sameButFrame p smp s).posY
@[simp] theorem append_intensity (p : Params) (smp : Sample) (s : State) : (append p smp s).intensity = s.intensity :=
  (append_sameButFrame p smp s).intensity
@[simp] theorem append_sampleRate (p : Params) (smp : Sample) (s : State) : (append p smp s).sampleRate = s.sampleRate :=
  (append_sameButFrame p smp s).sampleRate
@[simp] theorem append_scale (p : Params) (smp : Sample) (s : State) : (append p smp s).scale = s.scale :=
  (append_sameButFrame p smp s).scale
@[simp] theorem append_initDone (p : Params) (smp : Sample) (s : State) : (append p smp s).initDone = s.initDone :=
  (append_sameButFrame p smp s).initDone
@[simp] theorem append_devCount (p : Params) (smp : Sample) (s : State) : (append p smp s).devCount = s.devCount :=
  (append_sameButFrame p smp s).devCount
@[simp] theorem append_status (p : Params) (smp : Sample) (s : State) : (append p smp s).status = s.status :=
  (append_sameButFrame p smp s).status
@[simp] theorem append_firstErrCause (p : Params) (smp : Sample) (s : State) : (append p smp s).firstErrCause = s.firstErrCause :=
  (append_sameButFrame p smp s).firstErrCause
@[simp] theorem append_firstErrCwp (p : Params) (smp : Sample) (s : State) : (append p smp s).firstErrCwp = s.firstErrCwp :=
  (append_sameButFrame p smp s).firstErrCwp
@[simp] theorem append_cwp (p : Params) (smp : Sample) (s : State) : (append p smp s).cwp = s.cwp :=
  (append_sameButFrame p smp s).cwp
@[simp] theorem append_pend (p : Params) (smp : Sample) (s : State) : (append p smp s).pend = s.pend :=
  (append_sameButFrame p smp s).pend
@[simp] theorem append_input (p : Params) (smp : Sample) (s : State) : (append p smp s).input = s.input :=
  (append_sameButFrame p smp s).input
@[simp] theorem append_trace (p : Params) (smp : Sample) (s : State) : (append p smp s).trace = s.trace :=
  (append_sameButFrame p smp s).trace
@[simp] theorem append_script (p : Params) (smp : Sample) (s : State) : (append p smp s).script = s.script :=
  (append_sameButFrame p smp s).script
@[simp] theorem append_drawn (p : Params) (smp : Sample) (s : State) : (append p smp s).drawn = s.drawn :=
  (append_sameButFrame p smp s).drawn

@[simp] theorem appendAll_posX (p : Params) (l : List Sample) (s : State) : (appendAll p l s).posX = s.posX :=
  (appendAll_sameButFrame p l s).posX
@[simp] theorem appendAll_posY (p : Params) (l : List Sample) (s : State) : (appendAll p l s).posY = s.posY :=
  (appendAll_sameButFrame p l s).posY
@[simp] theorem appendAll_intensity (p : Params) (l : List Sample) (s : State) : (appendAll p l s).intensity = s.intensity :=
  (appendAll_sameButFrame p l s).intensity
@[simp] theorem appendAll_sampleRate (p : Params) (l : List Sample) (s : State) : (appendAll p l s).sampleRate = s.sampleRate :=
  (appendAll_sameButFrame p l s).sampleRate
@[simp] theorem appendAll_scale (p : Params) (l : List Sample) (s : State) : (appendAll p l s).scale = s.scale :=
  (appendAll_sameButFrame p l s).scale
@[simp] theorem appendAll_initDone (p : Params) (l : List Sample) (s : State) : (appendAll p l s).initDone = s.initDone :=
  (appendAll_sameButFrame p l s).initDone
@[simp] theorem appendAll_devCount (p : Params) (l : List Sample) (s : State) : (appendAll p l s).devCount = s.devCount :=
  (appendAll_sameButFrame p l s).devCount
@[simp] theorem appendAll_status (p : Params) (l : List Sample) (s : State) : (appendAll p l s).status = s.status :=
  (appendAll_sameButFrame p l s).status
@[simp] theorem appendAll_firstErrCause (p : Params) (l : List Sample) (s : State) : (appendAll p l s).firstErrCause = s.firstErrCause :=
  (appendAll_sameButFrame p l s).firstErrCause
@[simp] theorem appendAll_firstErrCwp (p : Params) (l : List Sample) (s : State) : (appendAll p l s).firstErrCwp = s.firstErrCwp :=
  (appendAll_sameButFrame p l s).firstErrCwp
@[simp] theorem appendAll_cwp (p : Params) (l : List Sample) (s : State) : (appendAll p l s).cwp = s.cwp :=
  (appendAll_sameButFrame p l s).cwp
@[simp] theorem appendAll_pend (p : Params) (l : List Sample) (s : State) : (appendAll p l s).pend = s.pend :=
  (appendAll_sameButFrame p l s).pend
@[simp] theorem appendAll_input (p : Params) (l : List Sample) (s : State) : (appendAll p l s).input = s.input :=
  (appendAll_sameButFrame p l s).input
@[simp] theorem appendAll_trace (p : Params) (l : List Sample) (s : State) : (appendAll p l s).trace = s.trace :=
  (appendAll_sameButFrame p l s).trace
@[simp] theorem appendAll_script (p : Params) (l : List Sample) (s : State) : (appendAll p l s).script = s.script :=
  (appendAll_sameButFrame p l s).script
@[simp] theorem appendAll_drawn (p : Params) (l : List Sample) (s : State) : (appendAll p l s).drawn = s.drawn :=
  (appendAll_sameButFrame p l s).drawn

end Sys2Proof.Machine
end

