-- ==== Sys2Proof/Laws/Memory.lean ====
section
/-!
SUPPORT. The frame buffer as an addressable store: a read after a write, the canonical form that every memory
operation keeps, and the spec lemma of append and appendAll.
-/

namespace Sys2Proof.Machine

open Sys2Proof

/-! ### Reads and writes -/

@[simp] theorem get?_nil (i : Nat) : Memory.get? [] i = none := rfl

theorem get?_cons (j : Nat) (t : Sample) (m : Memory) (i : Nat) :
    Memory.get? ((j, t) :: m) i = if i = j then some t else Memory.get? m i := rfl

/-- An index below every key is not listed. -/
theorem get?_eq_none_of_lt {m : Memory} {i : Nat} (h : ∀ e ∈ m, i < e.1) : m.get? i = none := by
  induction m with
  | nil => rfl
  | cons e m ih =>
    have h0 := h e (by simp)
    rw [get?_cons, if_neg (by omega), ih fun e' he' => h e' (by simp [he'])]

/-- A read after a write: the written entry gives the sample, in any memory. -/
@[simp] theorem get?_write_same (m : Memory) (i : Nat) (smp : Sample) : (m.write i smp).get? i = some smp := by
  induction m with
  | nil => simp [Memory.write, get?_cons]
  | cons e m ih =>
    obtain ⟨j, t⟩ := e
    unfold Memory.write
    split
    · simp [get?_cons]
    · split
      · simp [get?_cons]
      · rw [get?_cons, if_neg ‹_›, ih]

/-- A write leaves every other entry alone. -/
theorem get?_write_other (m : Memory) {i j : Nat} (smp : Sample) (h : j ≠ i) :
    (m.write i smp).get? j = m.get? j := by
  induction m with
  | nil => simp [Memory.write, get?_cons, h]
  | cons e m ih =>
    obtain ⟨k, t⟩ := e
    unfold Memory.write
    split
    · rw [get?_cons, if_neg h]
    · split
      · subst_vars
        rw [get?_cons, if_neg h, get?_cons, if_neg h]
      · rw [get?_cons, get?_cons, ih]

/-- The keys after a write: the old ones and the written one. -/
theorem mem_write {m : Memory} {i : Nat} {smp : Sample} {e : Nat × Sample} (h : e ∈ m.write i smp) :
    e = (i, smp) ∨ e ∈ m := by
  induction m with
  | nil => simpa [Memory.write] using h
  | cons e' m ih =>
    obtain ⟨j, t⟩ := e'
    unfold Memory.write at h
    split at h
    · simpa using h
    · split at h
      · rcases List.mem_cons.1 h with h | h
        · exact .inl h
        · exact .inr (List.mem_cons_of_mem _ h)
      · rcases List.mem_cons.1 h with h | h
        · exact .inr (by simp [h])
        · rcases ih h with h | h
          · exact .inl h
          · exact .inr (List.mem_cons_of_mem _ h)

/-! ### The canonical form -/

theorem wf_nil (cap : Nat) : Memory.wf cap [] := by simp [Memory.wf]

theorem wf_cons_iff {cap j : Nat} {t : Sample} {m : Memory} :
    Memory.wf cap ((j, t) :: m) ↔ j < cap ∧ (∀ e ∈ m, j < e.1) ∧ Memory.wf cap m := by
  simp only [Memory.wf, List.map_cons, List.pairwise_cons, List.mem_cons, List.mem_map,
    forall_exists_index, and_imp]
  constructor
  · rintro ⟨⟨h1, h2⟩, h3⟩
    exact ⟨h3 _ (.inl rfl), fun e he => h1 _ e he rfl, h2, fun e he => h3 e (.inr he)⟩
  · rintro ⟨h1, h2, h3, h4⟩
    refine ⟨⟨fun a e he hea => hea ▸ h2 e he, h3⟩, ?_⟩
    rintro e (rfl | he)
    · exact h1
    · exact h4 e he

/-- MemWrite keeps the canonical form. -/
theorem write_wf {cap i : Nat} {m : Memory} (smp : Sample) (h : m.wf cap) (hi : i < cap) :
    (m.write i smp).wf cap := by
  induction m with
  | nil => exact wf_cons_iff.2 ⟨hi, by simp, wf_nil cap⟩
  | cons e m ih =>
    obtain ⟨j, t⟩ := e
    obtain ⟨hj, hlt, hm⟩ := wf_cons_iff.1 h
    unfold Memory.write
    split
    · rename_i hij
      refine wf_cons_iff.2 ⟨hi, ?_, h⟩
      intro e he
      rcases List.mem_cons.1 he with rfl | he
      · exact hij
      · exact hij.trans (hlt e he)
    · split
      · subst_vars
        exact wf_cons_iff.2 ⟨hi, hlt, hm⟩
      · refine wf_cons_iff.2 ⟨hj, ?_, ih hm⟩
        intro e he
        rcases mem_write he with rfl | he
        · change j < i
          omega
        · exact hlt e he

/-- Two canonical memories that read alike are the same list. -/
theorem wf_ext {cap : Nat} {m m' : Memory} (h : m.wf cap) (h' : m'.wf cap)
    (hr : ∀ i, m.get? i = m'.get? i) : m = m' := by
  induction m generalizing m' with
  | nil =>
    cases m' with
    | nil => rfl
    | cons e m' =>
      obtain ⟨j, t⟩ := e
      simpa [get?_cons] using hr j
  | cons e m ih =>
    obtain ⟨j, t⟩ := e
    obtain ⟨hj, hlt, hm⟩ := wf_cons_iff.1 h
    cases m' with
    | nil => simpa [get?_cons] using hr j
    | cons e' m' =>
      obtain ⟨j', t'⟩ := e'
      obtain ⟨hj', hlt', hm'⟩ := wf_cons_iff.1 h'
      have hjj : j = j' := by
        rcases Nat.lt_trichotomy j j' with hl | hl | hl
        · have := hr j
          rw [get?_cons, if_pos rfl, get?_cons, if_neg (by omega),
            get?_eq_none_of_lt fun e he => hl.trans (hlt' e he)] at this
          simp at this
        · exact hl
        · have := hr j'
          rw [get?_cons, if_neg (by omega), get?_cons, if_pos rfl,
            get?_eq_none_of_lt fun e he => hl.trans (hlt e he)] at this
          simp at this
      subst hjj
      have htt : t = t' := by simpa [get?_cons] using hr j
      subst htt
      congr 1
      refine ih hm hm' fun i => ?_
      by_cases hi : i = j
      · subst hi
        rw [get?_eq_none_of_lt hlt, get?_eq_none_of_lt hlt']
      · simpa [get?_cons, hi] using hr i

/-! ### append -/

/-- Everything append can do to the frame buffer and its counters (R100). -/
theorem append_cases (p : Params) (smp : Sample) (s : State) :
    (s.fbCount < p.fbCapacity ∧ (append p smp s).fb = s.fb.write s.fbCount smp ∧
      (append p smp s).fbCount = s.fbCount + 1 ∧ (append p smp s).fbOverflow = s.fbOverflow) ∨
    (p.fbCapacity ≤ s.fbCount ∧ (append p smp s).fb = s.fb ∧ (append p smp s).fbCount = s.fbCount ∧
      (append p smp s).fbOverflow.toNat = min (s.fbOverflow.toNat + 1) 4294967295) := by
  unfold append
  split
  · exact .inl ⟨‹_›, rfl, rfl, rfl⟩
  · refine .inr ⟨by omega, ?_⟩
    have hlt := s.fbOverflow.isLt
    split
    · rename_i h
      have h' : s.fbOverflow.toNat < 4294967295 := h
      refine ⟨rfl, rfl, ?_⟩
      change (s.fbOverflow + 1#32).toNat = _
      rw [BitVec.toNat_add]
      change (s.fbOverflow.toNat + 1) % _ = _
      omega
    · rename_i h
      have h' : ¬ s.fbOverflow.toNat < 4294967295 := h
      refine ⟨rfl, rfl, ?_⟩
      omega

/-- Everything appendAll does to the frame buffer and its counters. -/
theorem appendAll_appended (p : Params) (l : List Sample) (s : State) : Appended p l s (appendAll p l s) := by
  induction l generalizing s with
  | nil =>
    have := s.fbOverflow.isLt
    exact ⟨by simp [appendAll_nil], by simp, by simp [appendAll_nil], by simp [appendAll_nil]; omega⟩
  | cons smp l ih =>
    rw [appendAll_cons]
    obtain ⟨hc, hk, ho, hv⟩ := ih (append p smp s)
    have hlt := s.fbOverflow.isLt
    rcases append_cases p smp s with ⟨hlt, hfb, hcnt, hov⟩ | ⟨hge, hfb, hcnt, hov⟩
    · rw [hcnt] at hc hk ho hv
      refine ⟨by rw [hc, List.length_cons]; omega, ?_, ?_, by rw [hv, hov, List.length_cons]; omega⟩
      · intro k hlk
        rw [List.length_cons] at hlk
        cases k with
        | zero =>
          rw [ho _ (by omega), hfb]
          simp
        | succ k =>
          rw [show s.fbCount + (k + 1) = s.fbCount + 1 + k by omega, hk k (by omega)]
          simp
      · intro j hj
        rw [List.length_cons] at hj
        rw [ho j (by omega), hfb, get?_write_other _ _ (by omega)]
    · rw [hcnt] at hc hk ho hv
      refine ⟨by rw [hc, List.length_cons]; omega, ?_, ?_, by rw [hv, hov, List.length_cons]; omega⟩
      · intro k hlk
        omega
      · intro j hj
        rw [ho j (by omega), hfb]

/-- append keeps the canonical form. -/
theorem append_wf {p : Params} {s : State} (smp : Sample) (h : s.fb.wf p.fbCapacity) :
    (append p smp s).fb.wf p.fbCapacity := by
  rcases append_cases p smp s with ⟨hlt, hfb, -⟩ | ⟨-, hfb, -⟩
  · rw [hfb]
    exact write_wf smp h hlt
  · rwa [hfb]

/-- appendAll keeps the canonical form. -/
theorem appendAll_wf {p : Params} {s : State} (l : List Sample) (h : s.fb.wf p.fbCapacity) :
    (appendAll p l s).fb.wf p.fbCapacity := by
  induction l generalizing s with
  | nil => exact h
  | cons smp l ih => exact ih (append_wf smp h)

theorem reset_fb_wf (cap : Nat) : State.reset.fb.wf cap := wf_nil cap

/-- MemRead's answer, entry by entry (R12). -/
theorem memRead_eq_some {p : Params} {m : Memory} {i n : Nat} (h : i + n ≤ p.fbCapacity) :
    memRead p m i n = some ((List.range' i n).map m.read) := if_pos h

theorem memRead_eq_none {p : Params} {m : Memory} {i n : Nat} (h : p.fbCapacity < i + n) :
    memRead p m i n = none := if_neg (by omega)

theorem read_of_get? {m : Memory} {i : Nat} {smp : Sample} (h : m.get? i = some smp) : m.read i = smp := by
  simp [Memory.read, h]

end Sys2Proof.Machine
end

