-- ==== Sys2Proof/Laws/Operands.lean ====
section
/-!
SUPPORT. The pure functions of values: the search behind the step count, the range and continuity tests as
propositions, the derived widths, and the sample's fields.
-/

namespace Sys2Proof.Machine

open Sys2Proof

/-! ### The search for the least k -/

/-- The search never answers below where it starts. -/
theorem leastFrom_ge (test : Nat → Bool) (fuel start : Nat) : start ≤ leastFrom test fuel start := by
  induction fuel generalizing start with
  | zero => exact Nat.le_refl _
  | succ fuel ih =>
    unfold leastFrom
    split
    · exact Nat.le_refl _
    · exact (Nat.le_succ start).trans (ih (start + 1))

/-- Nothing from the start up to the answer passes the test. -/
theorem leastFrom_min {test : Nat → Bool} {fuel start k : Nat} (hk : start ≤ k)
    (hlt : k < leastFrom test fuel start) : test k = false := by
  induction fuel generalizing start with
  | zero => exact absurd hlt (by simp only [leastFrom]; omega)
  | succ fuel ih =>
    unfold leastFrom at hlt
    split at hlt
    · omega
    · rename_i hs
      rcases Nat.eq_or_lt_of_le hk with rfl | hk
      · simpa using hs
      · exact ih hk hlt

/-- The answer passes the test if something within the fuel does. -/
theorem leastFrom_spec {test : Nat → Bool} {fuel start k : Nat} (hk : start ≤ k) (hle : k ≤ start + fuel)
    (ht : test k = true) : test (leastFrom test fuel start) = true := by
  induction fuel generalizing start with
  | zero =>
    have : k = start := by omega
    simpa [leastFrom, ← this] using ht
  | succ fuel ih =>
    unfold leastFrom
    split
    · assumption
    · rename_i hs
      have : k ≠ start := fun h => hs (h ▸ ht)
      exact ih (by omega) (by omega)

/-- The step count's test, as the proposition it decides. -/
theorem stepTest_iff (d : Rat) (m k : Nat) :
    decide (d ≤ (((k * m) ^ 2 : Nat) : Rat)) = true ↔ d ≤ ((k : Rat) * m) ^ 2 := by
  rw [decide_eq_true_iff]
  push_cast
  exact Iff.rfl

/-- The fuel is enough: the numerator of a sum of squares passes the test. -/
theorem stepTest_fuel {d : Rat} {m : Nat} (hd : 0 ≤ d) (hm : 0 < m) : d ≤ ((d.num.toNat : Rat) * m) ^ 2 := by
  have hn : 0 ≤ d.num := Rat.num_nonneg.2 hd
  have h1 : d ≤ (d.num.toNat : Rat) := by
    have hcast : ((d.num.toNat : Nat) : Rat) = (d.num : Rat) := by
      rw [← Int.cast_natCast, Int.toNat_of_nonneg hn]
    rw [hcast]
    conv_lhs => rw [← Rat.num_div_den d]
    exact div_le_self (by exact_mod_cast hn) (by exact_mod_cast d.den_pos)
  refine h1.trans ?_
  have h2 : d.num.toNat ≤ (d.num.toNat * m) ^ 2 :=
    (Nat.le_mul_of_pos_right _ hm).trans (by rw [sq]; exact Nat.le_mul_self _)
  exact_mod_cast h2

/-! ### Tests on points -/

theorem inRange_iff (p : Params) (a : Point) :
    inRange p a = true ↔ 0 ≤ a.x ∧ a.x ≤ p.maxCoord ∧ 0 ≤ a.y ∧ a.y ≤ p.maxCoord := by
  simp [inRange, and_assoc]

theorem near_iff (p : Params) (a b : Point) : near p a b = true ↔ dist2 a b ≤ (p.contTol : Rat) ^ 2 := by
  simp [near]

theorem dist2_nonneg (a b : Point) : 0 ≤ dist2 a b := add_nonneg (sq_nonneg _) (sq_nonneg _)

theorem dist2_self (a : Point) : dist2 a a = 0 := by simp [dist2]

theorem lit_iff (i : BitVec 8) : lit i = true ↔ i ≠ 0 := by simp [lit]

theorem lit_of_ne {i : BitVec 8} (h : i ≠ 0) : lit i = true := (lit_iff i).2 h

@[simp] theorem lit_zero : lit 0 = false := rfl

theorem lit_eq_lit_iff (i j : BitVec 8) : lit i = lit j ↔ (i ≠ 0 ↔ j ≠ 0) := by
  rw [← lit_iff, ← lit_iff, Bool.eq_iff_iff]

/-! ### Samples -/

/-- With this hardware's FULL_POWER the power is the intensity (R52). -/
theorem power_hw (i : BitVec 8) : power Params.hw i = i := by
  apply BitVec.eq_of_toNat_eq
  have := i.isLt
  simp only [power, Params.hw, BitVec.toNat_ofNat]
  rw [Nat.mul_div_cancel _ (by decide), Nat.mod_eq_of_lt this]

/-! ### Derived widths (R8) and coordinate fields (R52) -/

theorem le_two_pow_ceilLog2 (n : Nat) : n ≤ 2 ^ ceilLog2 n := by
  have := leastFrom_spec (test := fun k => decide (n ≤ 2 ^ k)) (fuel := n) (start := 0) (k := n) (Nat.zero_le _)
    (by omega) (by simpa using Nat.lt_two_pow_self.le)
  simpa [ceilLog2] using this

theorem ceilLog2_le {n k : Nat} (h : n ≤ 2 ^ k) : ceilLog2 n ≤ k := by
  by_contra hk
  have := leastFrom_min (Nat.zero_le k) (Nat.lt_of_not_le hk)
  simp [h] at this

@[simp] theorem coordWidth_hw : coordWidth Params.hw = 12 := by decide +kernel

theorem maxCoord_lt (p : Params) : p.maxCoord < 2 ^ coordWidth p := le_two_pow_ceilLog2 _

theorem coordField_lt (p : Params) (q : Rat) : coordField p q < 2 ^ coordWidth p := by
  have h : (0 : Int) < (2 ^ coordWidth p : Nat) := by positivity
  have h1 := Int.emod_nonneg q.floor h.ne'
  have h2 := Int.emod_lt_of_pos q.floor h
  unfold coordField
  omega

/-- A coordinate in range is floored and nothing else. -/
theorem coordField_of_range {p : Params} {q : Rat} (h0 : 0 ≤ q) (h1 : q ≤ p.maxCoord) :
    (coordField p q : Int) = q.floor := by
  have h2 : 0 ≤ q.floor := Rat.le_floor_iff.2 (by simpa using h0)
  have h3 : q.floor ≤ p.maxCoord := by exact_mod_cast (Rat.floor_le q).trans h1
  have h4 := maxCoord_lt p
  unfold coordField
  rw [Int.emod_eq_of_lt h2 (by omega)]
  omega

theorem coordField_le {p : Params} {q : Rat} (h0 : 0 ≤ q) (h1 : q ≤ p.maxCoord) : coordField p q ≤ p.maxCoord := by
  have h3 : q.floor ≤ p.maxCoord := by exact_mod_cast (Rat.floor_le q).trans h1
  have := coordField_of_range h0 h1
  omega

/-- The samples of this hardware, field by field. -/
theorem mkSample_hw (a : Point) (i : BitVec 8) :
    mkSample Params.hw a i = ⟨(a.x.floor % 4096).toNat, (a.y.floor % 4096).toNat, i⟩ := by
  simp [mkSample, coordField, power_hw]

theorem power_le (p : Params) (i : BitVec 8) : (power p i).toNat ≤ p.fullPower := by
  unfold power
  rw [BitVec.toNat_ofNat]
  have := i.isLt
  refine (Nat.mod_le _ _).trans (Nat.div_le_of_le_mul ?_)
  exact Nat.mul_le_mul_right _ (by omega)

/-- A sample formed from a point in range is in range, whatever the intensity (R51, R52). -/
theorem mkSample_range {p : Params} {a : Point} (h : inRange p a = true) (i : BitVec 8) :
    (mkSample p a i).x ≤ p.maxCoord ∧ (mkSample p a i).y ≤ p.maxCoord ∧ (mkSample p a i).p.toNat ≤ p.fullPower := by
  obtain ⟨h1, h2, h3, h4⟩ := (inRange_iff p a).1 h
  exact ⟨coordField_le h1 h2, coordField_le h3 h4, power_le p i⟩

/-- A value on the way from `a` to `t` lies between any bounds of both (R133). -/
theorem interpolation_between {a t m : Rat} {n k : Nat} (ha : 0 ≤ a ∧ a ≤ m) (ht : 0 ≤ t ∧ t ≤ m) (hk : k ≤ n) :
    0 ≤ a + (t - a) * k / n ∧ a + (t - a) * k / n ≤ m := by
  have hf0 : (0 : Rat) ≤ k / n := by positivity
  have hf1 : (k : Rat) / n ≤ 1 := div_le_one_of_le₀ (by exact_mod_cast hk) (by positivity)
  rw [mul_div_assoc]
  constructor <;> nlinarith

/-- Every point of a move between points in range is in range (R133). -/
theorem pathPoint_inRange {p : Params} {a t : Point} {n k : Nat} (ha : inRange p a = true) (ht : inRange p t = true)
    (hk : k ≤ n) : inRange p (pathPoint a t n k) = true := by
  obtain ⟨a1, a2, a3, a4⟩ := (inRange_iff p a).1 ha
  obtain ⟨t1, t2, t3, t4⟩ := (inRange_iff p t).1 ht
  obtain ⟨h1, h2⟩ := interpolation_between ⟨a1, a2⟩ ⟨t1, t2⟩ hk
  obtain ⟨h3, h4⟩ := interpolation_between ⟨a3, a4⟩ ⟨t3, t4⟩ hk
  exact (inRange_iff p _).2 ⟨h1, h2, h3, h4⟩

end Sys2Proof.Machine
end

