-- ==== Sys2Proof/Laws/Beam.lean ====
section
/-!
SUPPORT. What setOn and setPosition do, each said once: the samples they append and the registers they write.
-/

namespace Sys2Proof.Machine

open Sys2Proof

theorem on_iff (s : State) : s.on = true ↔ s.intensity ≠ 0 := lit_iff _

theorem dwell_congr {p : Params} {n : Nat} {s t : State} (hp : s.pos = t.pos) (hi : s.intensity = t.intensity) :
    dwell p n s = dwell p n t := by
  simp [dwell, hp, hi]

@[simp] theorem length_dwell (p : Params) (n : Nat) (s : State) : (dwell p n s).length = n := by simp [dwell]

@[simp] theorem length_moveSamples (p : Params) (t : Point) (s : State) :
    (moveSamples p t s).length = moveSteps p t s := by simp [moveSamples]

/-- Within an on/off class setOn does nothing (R130). -/
theorem setOn_same {p : Params} {i : BitVec 8} {s : State} (h : lit i = s.on) : setOn p i s = s := if_pos h

/-- On a change of class setOn writes INTENSITY and appends the transition's dwell (R130). -/
theorem setOn_change {p : Params} {i : BitVec 8} {s : State} (h : lit i ≠ s.on) :
    setOn p i s = appendAll p (dwell p (switchCycles p (lit i)) { s with intensity := i })
      { s with intensity := i } := if_neg h

/-- After setOn the beam is in the requested class. -/
theorem setOn_on (p : Params) (i : BitVec 8) (s : State) : (setOn p i s).on = lit i := by
  by_cases h : lit i = s.on
  · rw [setOn_same h, h]
  · rw [setOn_change h]
    simp [State.on]

/-- Appending commutes with writing the position. -/
theorem append_setPos (p : Params) (smp : Sample) (t : Point) (s : State) :
    append p smp (s.setPos t) = (append p smp s).setPos t := by
  by_cases h : s.fbCount < p.fbCapacity
  · rw [append_room h, append_room (s := s.setPos t) h]
    rfl
  · by_cases h' : s.fbOverflow < 0xFFFFFFFF
    · rw [append_full h h', append_full (s := s.setPos t) h h']
      rfl
    · rw [append_saturated h h', append_saturated (s := s.setPos t) h h']

theorem appendAll_setPos (p : Params) (l : List Sample) (t : Point) (s : State) :
    appendAll p l (s.setPos t) = (appendAll p l s).setPos t := by
  induction l generalizing s with
  | nil => rfl
  | cons smp l ih => rw [appendAll_cons, appendAll_cons, append_setPos, ih]

/-- Appending commutes with writing the intensity. -/
theorem append_setIntensity (p : Params) (smp : Sample) (i : BitVec 8) (s : State) :
    append p smp { s with intensity := i } = { append p smp s with intensity := i } := by
  by_cases h : s.fbCount < p.fbCapacity
  · rw [append_room h, append_room (s := { s with intensity := i }) h]
  · by_cases h' : s.fbOverflow < 0xFFFFFFFF
    · rw [append_full h h', append_full (s := { s with intensity := i }) h h']
    · rw [append_saturated h h', append_saturated (s := { s with intensity := i }) h h']

theorem appendAll_setIntensity (p : Params) (l : List Sample) (i : BitVec 8) (s : State) :
    appendAll p l { s with intensity := i } = { appendAll p l s with intensity := i } := by
  induction l generalizing s with
  | nil => rfl
  | cons smp l ih => rw [appendAll_cons, appendAll_cons, append_setIntensity, ih]

/-- The samples of a whole move: the interpolation points, then the settle dwell at the target (R134). -/
def travelSamples (p : Params) (t : Point) (s : State) : List Sample :=
  moveSamples p t s ++ List.replicate (settleCycles p s.on) (mkSample p t s.intensity)

/-- setPosition appends the whole move's samples and writes the position (R134). -/
theorem setPosition_eq (p : Params) (t : Point) (s : State) :
    setPosition p t s = appendAll p (travelSamples p t s) (s.setPos t) := by
  have hd : dwell p (settleCycles p ((appendAll p (moveSamples p t s) s).setPos t).on)
      ((appendAll p (moveSamples p t s) s).setPos t) =
      List.replicate (settleCycles p s.on) (mkSample p t s.intensity) := by
    simp [dwell, State.on, State.pos]
  unfold setPosition travelSamples
  dsimp only
  rw [hd, appendAll_append, appendAll_setPos, appendAll_setPos, appendAll_setPos]

@[simp] theorem setPosition_pos (p : Params) (t : Point) (s : State) : (setPosition p t s).pos = t := by
  rw [setPosition_eq]
  simp [State.pos]

@[simp] theorem setPosition_intensity (p : Params) (t : Point) (s : State) :
    (setPosition p t s).intensity = s.intensity := by
  rw [setPosition_eq]
  simp

/-- What setPosition does to the frame buffer and its counters. -/
theorem setPosition_appended (p : Params) (t : Point) (s : State) :
    Appended p (travelSamples p t s) s (setPosition p t s) := by
  rw [setPosition_eq]
  obtain ⟨h1, h2, h3, h4⟩ := appendAll_appended p (travelSamples p t s) (s.setPos t)
  exact ⟨h1, h2, h3, h4⟩

/-- setPosition writes the position, the frame buffer and its counters only. -/
theorem setPosition_sameButFrame (p : Params) (t : Point) (s : State) :
    SameButFrame (s.setPos t) (setPosition p t s) := by
  rw [setPosition_eq]
  exact appendAll_sameButFrame _ _ _

/-- What setOn does to the frame buffer and its counters. -/
theorem setOn_appended (p : Params) (i : BitVec 8) (s : State) :
    Appended p (if lit i = s.on then [] else List.replicate (switchCycles p (lit i)) (mkSample p s.pos i)) s
      (setOn p i s) := by
  by_cases h : lit i = s.on
  · rw [setOn_same h, if_pos h]
    simpa [appendAll_nil] using appendAll_appended p [] s
  · rw [setOn_change h, if_neg h]
    obtain ⟨h1, h2, h3, h4⟩ := appendAll_appended p
      (dwell p (switchCycles p (lit i)) { s with intensity := i }) { s with intensity := i }
    exact ⟨h1, h2, h3, h4⟩

/-- setOn writes the intensity (on a change of class), the frame buffer and its counters only. -/
theorem setOn_sameButFrame (p : Params) (i : BitVec 8) (s : State) :
    SameButFrame (if lit i = s.on then s else { s with intensity := i }) (setOn p i s) := by
  by_cases h : lit i = s.on
  · rw [setOn_same h, if_pos h]
    exact .refl s
  · rw [setOn_change h, if_neg h]
    exact appendAll_sameButFrame _ _ _

/-- Two appended runs of samples are one run of both. -/
theorem Appended.trans {p : Params} {l l' : List Sample} {s t u : State} (h : Appended p l s t)
    (h' : Appended p l' t u) : Appended p (l ++ l') s u := by
  obtain ⟨hc, hk, ho, hv⟩ := h
  obtain ⟨hc', hk', ho', hv'⟩ := h'
  refine ⟨by rw [hc', hc, List.length_append]; omega, ?_, ?_, by rw [hv', hv, hc, List.length_append]; omega⟩
  · intro k hlt
    rw [List.length_append] at hlt
    by_cases hkl : k < l.length
    · rw [ho' _ (by omega), hk _ (by omega), List.getElem?_append_left hkl]
    · have hk2 := hk' (k - l.length) (by omega)
      rw [hc, show s.fbCount + min l.length (p.fbCapacity - s.fbCount) + (k - l.length) = s.fbCount + k by omega]
        at hk2
      rw [hk2, List.getElem?_append_right (by omega)]
  · intro j hj
    rw [List.length_append] at hj
    rw [ho' j (by omega), ho j (by omega)]

theorem Appended.nil (p : Params) (s : State) : Appended p [] s s := by
  simpa [appendAll_nil] using appendAll_appended p [] s

/-- Everything but the beam, the frame buffer and its counters is as in `s`: what the drawing commands may change
when they raise no error (R21's "written by" column). -/
def SameButBeam (s t : State) : Prop :=
  { t with
    posX := s.posX, posY := s.posY, intensity := s.intensity
    fb := s.fb, fbCount := s.fbCount, fbOverflow := s.fbOverflow } = s

theorem SameButBeam.refl (s : State) : SameButBeam s s := rfl

theorem SameButBeam.sampleRate {s t : State} (h : SameButBeam s t) : t.sampleRate = s.sampleRate := by rw [← h]
theorem SameButBeam.scale {s t : State} (h : SameButBeam s t) : t.scale = s.scale := by rw [← h]
theorem SameButBeam.initDone {s t : State} (h : SameButBeam s t) : t.initDone = s.initDone := by rw [← h]
theorem SameButBeam.devCount {s t : State} (h : SameButBeam s t) : t.devCount = s.devCount := by rw [← h]
theorem SameButBeam.status {s t : State} (h : SameButBeam s t) : t.status = s.status := by rw [← h]
theorem SameButBeam.firstErrCause {s t : State} (h : SameButBeam s t) : t.firstErrCause = s.firstErrCause := by rw [← h]
theorem SameButBeam.firstErrCwp {s t : State} (h : SameButBeam s t) : t.firstErrCwp = s.firstErrCwp := by rw [← h]
theorem SameButBeam.cwp {s t : State} (h : SameButBeam s t) : t.cwp = s.cwp := by rw [← h]
theorem SameButBeam.pend {s t : State} (h : SameButBeam s t) : t.pend = s.pend := by rw [← h]
theorem SameButBeam.input {s t : State} (h : SameButBeam s t) : t.input = s.input := by rw [← h]
theorem SameButBeam.trace {s t : State} (h : SameButBeam s t) : t.trace = s.trace := by rw [← h]
theorem SameButBeam.script {s t : State} (h : SameButBeam s t) : t.script = s.script := by rw [← h]
theorem SameButBeam.drawn {s t : State} (h : SameButBeam s t) : t.drawn = s.drawn := by rw [← h]

theorem SameButBeam.trans {s t u : State} (h : SameButBeam s t) (h' : SameButBeam t u) : SameButBeam s u := by
  unfold SameButBeam
  rw [h'.sampleRate, h'.scale, h'.initDone, h'.devCount, h'.status, h'.firstErrCause, h'.firstErrCwp, h'.cwp,
    h'.pend, h'.input, h'.trace, h'.script, h'.drawn]
  exact h

theorem SameButFrame.sameButBeam {s t : State} (h : SameButFrame s t) : SameButBeam s t := by
  unfold SameButBeam
  rw [h.sampleRate, h.scale, h.initDone, h.devCount, h.status, h.firstErrCause, h.firstErrCwp, h.cwp, h.pend,
    h.input, h.trace, h.script, h.drawn]

theorem setOn_sameButBeam (p : Params) (i : BitVec 8) (s : State) : SameButBeam s (setOn p i s) := by
  have h := (setOn_sameButFrame p i s).sameButBeam
  split at h
  · exact h
  · exact SameButBeam.trans (t := { s with intensity := i }) (.refl s) h

theorem setPosition_sameButBeam (p : Params) (t : Point) (s : State) : SameButBeam s (setPosition p t s) :=
  SameButBeam.trans (t := s.setPos t) (.refl s) (setPosition_sameButFrame p t s).sameButBeam

end Sys2Proof.Machine
end

