-- ==== Sys2Proof/Laws/Commands.lean ====
section
/-!
SUPPORT. What the device part of INIT and the emission of a frame leave unchanged, field by field, and what a whole
command can do when it answers a next state.
-/

namespace Sys2Proof.Machine

open Sys2Proof

@[simp] theorem pollSink_posX (p : Params) (s : State) : (pollSink p s).posX = s.posX := by
  unfold pollSink
  split <;> rfl

@[simp] theorem pollSink_posY (p : Params) (s : State) : (pollSink p s).posY = s.posY := by
  unfold pollSink
  split <;> rfl

@[simp] theorem pollSink_intensity (p : Params) (s : State) : (pollSink p s).intensity = s.intensity := by
  unfold pollSink
  split <;> rfl

@[simp] theorem pollSink_sampleRate (p : Params) (s : State) : (pollSink p s).sampleRate = s.sampleRate := by
  unfold pollSink
  split <;> rfl

@[simp] theorem pollSink_scale (p : Params) (s : State) : (pollSink p s).scale = s.scale := by
  unfold pollSink
  split <;> rfl

@[simp] theorem pollSink_initDone (p : Params) (s : State) : (pollSink p s).initDone = s.initDone := by
  unfold pollSink
  split <;> rfl

@[simp] theorem pollSink_devCount (p : Params) (s : State) : (pollSink p s).devCount = s.devCount := by
  unfold pollSink
  split <;> rfl

@[simp] theorem pollSink_fbCount (p : Params) (s : State) : (pollSink p s).fbCount = s.fbCount := by
  unfold pollSink
  split <;> rfl

@[simp] theorem pollSink_fbOverflow (p : Params) (s : State) : (pollSink p s).fbOverflow = s.fbOverflow := by
  unfold pollSink
  split <;> rfl

@[simp] theorem pollSink_status (p : Params) (s : State) : (pollSink p s).status = s.status := by
  unfold pollSink
  split <;> rfl

@[simp] theorem pollSink_firstErrCause (p : Params) (s : State) : (pollSink p s).firstErrCause = s.firstErrCause := by
  unfold pollSink
  split <;> rfl

@[simp] theorem pollSink_firstErrCwp (p : Params) (s : State) : (pollSink p s).firstErrCwp = s.firstErrCwp := by
  unfold pollSink
  split <;> rfl

@[simp] theorem pollSink_cwp (p : Params) (s : State) : (pollSink p s).cwp = s.cwp := by
  unfold pollSink
  split <;> rfl

@[simp] theorem pollSink_pend (p : Params) (s : State) : (pollSink p s).pend = s.pend := by
  unfold pollSink
  split <;> rfl

@[simp] theorem pollSink_fb (p : Params) (s : State) : (pollSink p s).fb = s.fb := by
  unfold pollSink
  split <;> rfl

@[simp] theorem pollSink_input (p : Params) (s : State) : (pollSink p s).input = s.input := by
  unfold pollSink
  split <;> rfl

@[simp] theorem openDevice_posX (p : Params) (s : State) : (openDevice p s).posX = s.posX := by
  unfold openDevice
  dsimp only
  split <;> rfl

@[simp] theorem openDevice_posY (p : Params) (s : State) : (openDevice p s).posY = s.posY := by
  unfold openDevice
  dsimp only
  split <;> rfl

@[simp] theorem openDevice_intensity (p : Params) (s : State) : (openDevice p s).intensity = s.intensity := by
  unfold openDevice
  dsimp only
  split <;> rfl

@[simp] theorem openDevice_sampleRate (p : Params) (s : State) : (openDevice p s).sampleRate = s.sampleRate := by
  unfold openDevice
  dsimp only
  split <;> rfl

@[simp] theorem openDevice_scale (p : Params) (s : State) : (openDevice p s).scale = s.scale := by
  unfold openDevice
  dsimp only
  split <;> rfl

@[simp] theorem openDevice_initDone (p : Params) (s : State) : (openDevice p s).initDone = s.initDone := by
  unfold openDevice
  dsimp only
  split <;> rfl

@[simp] theorem openDevice_fbCount (p : Params) (s : State) : (openDevice p s).fbCount = s.fbCount := by
  unfold openDevice
  dsimp only
  split <;> rfl

@[simp] theorem openDevice_fbOverflow (p : Params) (s : State) : (openDevice p s).fbOverflow = s.fbOverflow := by
  unfold openDevice
  dsimp only
  split <;> rfl

@[simp] theorem openDevice_status (p : Params) (s : State) : (openDevice p s).status = s.status := by
  unfold openDevice
  dsimp only
  split <;> rfl

@[simp] theorem openDevice_firstErrCause (p : Params) (s : State) : (openDevice p s).firstErrCause = s.firstErrCause := by
  unfold openDevice
  dsimp only
  split <;> rfl

@[simp] theorem openDevice_firstErrCwp (p : Params) (s : State) : (openDevice p s).firstErrCwp = s.firstErrCwp := by
  unfold openDevice
  dsimp only
  split <;> rfl

@[simp] theorem openDevice_cwp (p : Params) (s : State) : (openDevice p s).cwp = s.cwp := by
  unfold openDevice
  dsimp only
  split <;> rfl

@[simp] theorem openDevice_pend (p : Params) (s : State) : (openDevice p s).pend = s.pend := by
  unfold openDevice
  dsimp only
  split <;> rfl

@[simp] theorem openDevice_fb (p : Params) (s : State) : (openDevice p s).fb = s.fb := by
  unfold openDevice
  dsimp only
  split <;> rfl

@[simp] theorem openDevice_input (p : Params) (s : State) : (openDevice p s).input = s.input := by
  unfold openDevice
  dsimp only
  split <;> rfl

@[simp] theorem openDevice_devCount (p : Params) (s : State) : (openDevice p s).devCount = openAnswer s := by
  unfold openDevice
  dsimp only
  split <;> rfl

@[simp] theorem emitFrame_posX (p : Params) (l : List Sample) (s : State) : (emitFrame p l s).posX = s.posX := by
  unfold emitFrame
  dsimp only
  split <;> split <;> simp

@[simp] theorem emitFrame_posY (p : Params) (l : List Sample) (s : State) : (emitFrame p l s).posY = s.posY := by
  unfold emitFrame
  dsimp only
  split <;> split <;> simp

@[simp] theorem emitFrame_intensity (p : Params) (l : List Sample) (s : State) : (emitFrame p l s).intensity = s.intensity := by
  unfold emitFrame
  dsimp only
  split <;> split <;> simp

@[simp] theorem emitFrame_sampleRate (p : Params) (l : List Sample) (s : State) : (emitFrame p l s).sampleRate = s.sampleRate := by
  unfold emitFrame
  dsimp only
  split <;> split <;> simp

@[simp] theorem emitFrame_scale (p : Params) (l : List Sample) (s : State) : (emitFrame p l s).scale = s.scale := by
  unfold emitFrame
  dsimp only
  split <;> split <;> simp

@[simp] theorem emitFrame_initDone (p : Params) (l : List Sample) (s : State) : (emitFrame p l s).initDone = s.initDone := by
  unfold emitFrame
  dsimp only
  split <;> split <;> simp

@[simp] theorem emitFrame_devCount (p : Params) (l : List Sample) (s : State) : (emitFrame p l s).devCount = s.devCount := by
  unfold emitFrame
  dsimp only
  split <;> split <;> simp

@[simp] theorem emitFrame_status (p : Params) (l : List Sample) (s : State) : (emitFrame p l s).status = s.status := by
  unfold emitFrame
  dsimp only
  split <;> split <;> simp

@[simp] theorem emitFrame_firstErrCause (p : Params) (l : List Sample) (s : State) : (emitFrame p l s).firstErrCause = s.firstErrCause := by
  unfold emitFrame
  dsimp only
  split <;> split <;> simp

@[simp] theorem emitFrame_firstErrCwp (p : Params) (l : List Sample) (s : State) : (emitFrame p l s).firstErrCwp = s.firstErrCwp := by
  unfold emitFrame
  dsimp only
  split <;> split <;> simp

@[simp] theorem emitFrame_cwp (p : Params) (l : List Sample) (s : State) : (emitFrame p l s).cwp = s.cwp := by
  unfold emitFrame
  dsimp only
  split <;> split <;> simp

@[simp] theorem emitFrame_pend (p : Params) (l : List Sample) (s : State) : (emitFrame p l s).pend = s.pend := by
  unfold emitFrame
  dsimp only
  split <;> split <;> simp

@[simp] theorem emitFrame_fb (p : Params) (l : List Sample) (s : State) : (emitFrame p l s).fb = s.fb := by
  unfold emitFrame
  dsimp only
  split <;> split <;> simp

@[simp] theorem emitFrame_input (p : Params) (l : List Sample) (s : State) : (emitFrame p l s).input = s.input := by
  unfold emitFrame
  dsimp only
  split <;> split <;> simp

@[simp] theorem emitFrame_fbCount (p : Params) (l : List Sample) (s : State) : (emitFrame p l s).fbCount = 0 := rfl

@[simp] theorem emitFrame_fbOverflow (p : Params) (l : List Sample) (s : State) :
    (emitFrame p l s).fbOverflow = 0 := rfl

/-- Everything EMIT can do when it answers a next state. -/
theorem emit_cases {p : Params} {s t : State} (h : emit p s = .next t) :
    (s.initDone = false ∧ t = raise .notInit s) ∨
    (s.initDone = true ∧ s.fbCount = 0 ∧ t = s) ∨
    (s.initDone = true ∧ 0 < s.fbCount ∧ s.fbCount ≤ p.fbCapacity ∧
      t = emitFrame p ((List.range' 0 s.fbCount).map s.fb.read) s) := by
  unfold emit at h
  split at h
  · injection h with h
    exact .inl ⟨‹_›, h.symm⟩
  · rename_i hi
    rw [Bool.not_eq_false] at hi
    split at h
    · injection h with h
      exact .inr (.inl ⟨hi, ‹_›, h.symm⟩)
    · by_cases hc : 0 + s.fbCount ≤ p.fbCapacity
      · rw [memRead_eq_some hc] at h
        injection h with h
        exact .inr (.inr ⟨hi, by omega, by omega, h.symm⟩)
      · rw [memRead_eq_none (by omega)] at h
        simp at h

/-- Everything LINE can do (R160). -/
theorem line_cases (p : Params) (x0 y0 x1 y1 : Rat) (c : BitVec 8) (s : State) :
    (s.initDone = false ∧ line p x0 y0 x1 y1 c s = raise .notInit s) ∨
    (s.initDone = true ∧ line p x0 y0 x1 y1 c s = raise .range s) ∨
    (s.initDone = true ∧ inRange p (scalePoint s.scale ⟨x0, y0⟩) = true ∧
      inRange p (scalePoint s.scale ⟨x1, y1⟩) = true ∧
      line p x0 y0 x1 y1 c s = renderLine p (scalePoint s.scale ⟨x0, y0⟩) (scalePoint s.scale ⟨x1, y1⟩) c s) := by
  unfold line
  split
  · exact .inl ⟨‹_›, rfl⟩
  · rename_i hi
    rw [Bool.not_eq_false] at hi
    dsimp only
    split
    · exact .inr (.inl ⟨hi, rfl⟩)
    · rename_i hr
      rw [Bool.not_eq_false, Bool.and_eq_true] at hr
      exact .inr (.inr ⟨hi, hr.1, hr.2, rfl⟩)

theorem renderLine_sameButBeam (p : Params) (p0 p1 : Point) (c : BitVec 8) (s : State) :
    SameButBeam s (renderLine p p0 p1 c s) := by
  unfold renderLine blankJump
  dsimp only
  refine SameButBeam.trans ?_ (setPosition_sameButBeam _ _ _)
  have hb : SameButBeam s (if (!near p s.pos p0) = true then setPosition p p0 (setOn p 0 s) else s) := by
    split
    · exact (setOn_sameButBeam _ _ _).trans (setPosition_sameButBeam _ _ _)
    · exact .refl s
  have hc : ∀ (b : Bool) (u : State), SameButBeam u (if b = true then setOn p c u else u) := fun b u => by
    cases b
    · exact .refl u
    · exact setOn_sameButBeam _ _ _
  exact hb.trans (hc _ _)

/-- Everything SETON can do (R135). -/
theorem seton_cases (p : Params) (i : BitVec 8) (s : State) :
    (s.initDone = false ∧ seton p i s = raise .notInit s) ∨ (s.initDone = true ∧ seton p i s = setOn p i s) := by
  unfold seton
  cases s.initDone <;> simp

/-- Everything SETPOS can do (R136). -/
theorem setpos_cases (p : Params) (x y : Rat) (s : State) :
    (s.initDone = false ∧ setpos p x y s = raise .notInit s) ∨
    (s.initDone = true ∧ inRange p ⟨x, y⟩ = false ∧ setpos p x y s = raise .range s) ∨
    (s.initDone = true ∧ inRange p ⟨x, y⟩ = true ∧ setpos p x y s = setPosition p ⟨x, y⟩ s) := by
  unfold setpos
  cases s.initDone <;> cases inRange p ⟨x, y⟩ <;> simp

/-- Everything INIT can do (R180). -/
theorem init_cases (p : Params) (w h : Rat) (s : State) :
    (max w h = 0 ∧ init p w h s = raise .param s) ∨
    (max w h ≠ 0 ∧ init p w h s =
      { openDevice p { s with
          sampleRate := BitVec.ofNat 32 p.defaultSampleRate
          scale := scaleFactor p w h } with initDone := true }) := by
  unfold init
  by_cases hm : max w h = 0 <;> simp [hm]

/-- The device part of INIT only appends to the trace, and no ERROR. -/
theorem openDevice_trace (p : Params) (s : State) :
    ∃ l, (openDevice p s).trace = s.trace ++ l ∧ ∀ ev ∈ l, ev.isError = false := by
  unfold openDevice
  dsimp only
  split
  · exact ⟨_, List.append_assoc _ _ _, by simp [Event.isError]⟩
  · exact ⟨_, List.append_assoc _ _ _, by simp [Event.isError]⟩

theorem openDevice_drawn (p : Params) (s : State) : s.drawn ≤ (openDevice p s).drawn := by
  unfold openDevice
  dsimp only
  split
  · exact Nat.le_add_right s.drawn 4
  · exact Nat.le_succ _

/-- Emission only appends to the trace, and no ERROR. -/
theorem emitFrame_trace (p : Params) (l : List Sample) (s : State) :
    ∃ new, (emitFrame p l s).trace = s.trace ++ new ∧ ∀ ev ∈ new, ev.isError = false := by
  unfold emitFrame pollSink
  dsimp only
  split_ifs <;> simp [callWrite, callStatus, emitEvent, Event.isError]

theorem emitFrame_drawn (p : Params) (l : List Sample) (s : State) : s.drawn ≤ (emitFrame p l s).drawn := by
  unfold emitFrame pollSink
  dsimp only
  split_ifs <;> simp [callWrite, callStatus, emitEvent] <;> omega

/-- What a command does to the state outside the beam and the frame when it answers a next state: it raises one
error and does nothing else, or it records no error. -/
theorem execWith_cases {p : Params} {i : Instr} {s t : State} (h : execWith p i s = .next t) :
    (∃ e, t = raise e s) ∨
    (t.status = s.status ∧ t.firstErrCause = s.firstErrCause ∧ t.firstErrCwp = s.firstErrCwp ∧ t.cwp = s.cwp ∧
      t.pend = s.pend ∧ t.input = s.input ∧ s.drawn ≤ t.drawn ∧
      ∃ l, t.trace = s.trace ++ l ∧ ∀ ev ∈ l, ev.isError = false) := by
  have beam : ∀ {u : State}, SameButBeam s u → (u.status = s.status ∧ u.firstErrCause = s.firstErrCause ∧
      u.firstErrCwp = s.firstErrCwp ∧ u.cwp = s.cwp ∧ u.pend = s.pend ∧ u.input = s.input ∧ s.drawn ≤ u.drawn ∧
      ∃ l, u.trace = s.trace ++ l ∧ ∀ ev ∈ l, ev.isError = false) := fun hu =>
    ⟨hu.status, hu.firstErrCause, hu.firstErrCwp, hu.cwp, hu.pend, hu.input, hu.drawn.ge, [], by simp [hu.trace],
      by simp⟩
  cases i with
  | init w v =>
    injection h with h
    subst h
    rcases init_cases p w v s with ⟨-, h⟩ | ⟨-, h⟩
    · exact .inl ⟨_, h⟩
    · right
      rw [h]
      refine ⟨by simp, by simp, by simp, by simp, by simp, by simp, ?_, ?_⟩
      · exact openDevice_drawn p { s with
          sampleRate := BitVec.ofNat 32 p.defaultSampleRate
          scale := scaleFactor p w v }
      · exact openDevice_trace p { s with
          sampleRate := BitVec.ofNat 32 p.defaultSampleRate
          scale := scaleFactor p w v }
  | seton c =>
    injection h with h
    subst h
    rcases seton_cases p c s with ⟨-, h⟩ | ⟨-, h⟩
    · exact .inl ⟨_, h⟩
    · exact .inr (h ▸ beam (setOn_sameButBeam _ _ _))
  | setpos x y =>
    injection h with h
    subst h
    rcases setpos_cases p x y s with ⟨-, h⟩ | ⟨-, -, h⟩ | ⟨-, -, h⟩
    · exact .inl ⟨_, h⟩
    · exact .inl ⟨_, h⟩
    · exact .inr (h ▸ beam (setPosition_sameButBeam _ _ _))
  | line x0 y0 x1 y1 c =>
    injection h with h
    subst h
    rcases line_cases p x0 y0 x1 y1 c s with ⟨-, h⟩ | ⟨-, h⟩ | ⟨-, -, -, h⟩
    · exact .inl ⟨_, h⟩
    · exact .inl ⟨_, h⟩
    · exact .inr (h ▸ beam (renderLine_sameButBeam _ _ _ _ _))
  | emit =>
    rcases emit_cases  h with ⟨-, h⟩ | ⟨-, -, h⟩ | ⟨-, -, -, h⟩
    · exact .inl ⟨_, h⟩
    · exact .inr (h ▸ beam (.refl s))
    · right
      rw [h]
      exact ⟨by simp, by simp, by simp, by simp, by simp, by simp, emitFrame_drawn _ _ _, emitFrame_trace _ _ _⟩

/-- `exec` is `execWith` at this hardware's parameters (R7). -/
theorem exec_eq_execWith : exec = execWith Params.hw := by
  funext i s
  cases i <;> rfl

theorem exec_cases {i : Instr} {s t : State} (h : exec i s = .next t) :
    (∃ e, t = raise e s) ∨
    (t.status = s.status ∧ t.firstErrCause = s.firstErrCause ∧ t.firstErrCwp = s.firstErrCwp ∧ t.cwp = s.cwp ∧
      t.pend = s.pend ∧ t.input = s.input ∧ s.drawn ≤ t.drawn ∧
      ∃ l, t.trace = s.trace ++ l ∧ ∀ ev ∈ l, ev.isError = false) := by
  rw [exec_eq_execWith] at h
  exact execWith_cases h

end Sys2Proof.Machine
end

