-- ==== Sys2Proof/Laws/Decode.lean ====
section
/-!
SUPPORT. Header fields, operand words and byte transport, each said once: what provers cite for decoding.
-/

namespace Sys2Proof

/-! ### Header fields (R71) -/

@[simp] theorem opc_header (o imm : BitVec 8) : opc (header o imm) = o := by
  unfold opc header
  ext i hi
  simp only [BitVec.getElem_extractLsb', BitVec.getLsbD_append]
  rw [if_pos (by omega), Nat.zero_add, BitVec.getLsbD_eq_getElem hi]

@[simp] theorem imm8_header (o imm : BitVec 8) : imm8 (header o imm) = imm := by
  unfold imm8 header
  ext i hi
  simp only [BitVec.getElem_extractLsb', BitVec.getLsbD_append]
  rw [if_neg (by omega), if_pos (by omega), show 8 + i - 8 = i by omega, BitVec.getLsbD_eq_getElem hi]

@[simp] theorem rsv_header (o imm : BitVec 8) : rsv (header o imm) = 0 := by
  unfold rsv header
  ext i hi
  simp only [BitVec.getElem_extractLsb', BitVec.getLsbD_append]
  rw [if_neg (by omega), if_neg (by omega)]
  simp

/-- A header is its three fields. -/
theorem header_of_fields (h : Word) (hr : rsv h = 0) : header (opc h) (imm8 h) = h := by
  unfold rsv at hr
  unfold header opc imm8
  ext i hi
  simp only [BitVec.getElem_append, BitVec.getElem_extractLsb']
  by_cases h8 : i < 8
  · simp [h8, BitVec.getLsbD_eq_getElem hi]
  · by_cases h16 : i < 16
    · rw [dif_neg h8, dif_pos (by omega), show 8 + (i - 8) = i by omega, BitVec.getLsbD_eq_getElem hi]
    · rw [dif_neg h8, dif_neg (by omega)]
      have := congrArg (fun b => b.getLsbD (i - 16)) hr
      simp only [BitVec.getLsbD_extractLsb'] at this
      rw [show 16 + (i - 16) = i by omega, BitVec.getLsbD_eq_getElem hi] at this
      have h3 : i - 16 < 16 := by omega
      simp only [h3, decide_true, Bool.true_and] at this
      rw [this]
      simp

/-- A header word is legal in RSV exactly when it is put together from its other two fields. -/
theorem header_eq_iff {h : Word} {o imm : BitVec 8} : h = header o imm ↔ opc h = o ∧ imm8 h = imm ∧ rsv h = 0 := by
  constructor
  · rintro rfl; simp
  · rintro ⟨rfl, rfl, hr⟩
    exact (header_of_fields h hr).symm

/-! ### Lengths (R74) -/

theorem cmdLen_pos (o : BitVec 8) : 0 < cmdLen o := by
  unfold cmdLen
  repeat' split
  all_goals decide

theorem cmdLen_le (o : BitVec 8) : cmdLen o ≤ 5 := by
  unfold cmdLen
  repeat' split
  all_goals decide

/-! ### Operand words (R72) -/

theorem onGrid_iff (x : Rat) : onGrid x = true ↔ ∃ z : Int, x = z / 65536 := by
  unfold onGrid
  rw [beq_iff_eq]
  constructor
  · intro h
    refine ⟨(x * 65536).num, ?_⟩
    have := Rat.den_eq_one_iff (x * 65536) |>.1 h
    rw [this]
    field_simp
  · rintro ⟨z, rfl⟩
    rw [div_mul_cancel₀ _ (by norm_num)]
    exact Rat.den_intCast z

theorem toQ16_intDiv (z : Int) : toQ16 ((z : Rat) / 65536) = BitVec.ofInt 32 z := by
  unfold toQ16
  rw [div_mul_cancel₀ _ (by norm_num), Rat.floor_intCast]

theorem toUq16_natDiv (n : Nat) : toUq16 ((n : Rat) / 65536) = BitVec.ofNat 32 n := by
  unfold toUq16
  rw [div_mul_cancel₀ _ (by norm_num), ← Int.cast_natCast, Rat.floor_intCast, Int.toNat_natCast]

/-- Encoding a coordinate operand and reading it back. -/
theorem q16_toQ16 {x : Rat} (h : coordOk x = true) : q16 (toQ16 x) = x := by
  simp only [coordOk, Bool.and_eq_true, decide_eq_true_eq] at h
  obtain ⟨⟨hg, hlo⟩, hhi⟩ := h
  obtain ⟨z, rfl⟩ := (onGrid_iff x).1 hg
  have hlo' : (-2147483648 : Rat) ≤ z := by
    rw [le_div_iff₀ (by norm_num)] at hlo
    linarith
  have hhi' : (z : Rat) < 2147483648 := by
    rw [div_lt_iff₀ (by norm_num)] at hhi
    linarith
  have h1 : -2147483648 ≤ z := by exact_mod_cast hlo'
  have h2 : z < 2147483648 := by exact_mod_cast hhi'
  rw [toQ16_intDiv]
  unfold q16
  rw [BitVec.toInt_ofInt, Int.bmod_eq_of_le (by omega) (by omega)]

/-- Encoding a dimension operand and reading it back. -/
theorem uq16_toUq16 {x : Rat} (h : dimOk x = true) : uq16 (toUq16 x) = x := by
  simp only [dimOk, Bool.and_eq_true, decide_eq_true_eq] at h
  obtain ⟨⟨hg, hlo⟩, hhi⟩ := h
  obtain ⟨z, rfl⟩ := (onGrid_iff x).1 hg
  have hlo' : (0 : Rat) ≤ z := by
    rw [le_div_iff₀ (by norm_num)] at hlo
    linarith
  have hhi' : (z : Rat) < 4294967296 := by
    rw [div_lt_iff₀ (by norm_num)] at hhi
    linarith
  obtain ⟨n, rfl⟩ := Int.eq_ofNat_of_zero_le (a := z) (by exact_mod_cast hlo')
  have h2 : n < 4294967296 := by exact_mod_cast hhi'
  rw [Int.cast_natCast, toUq16_natDiv]
  unfold uq16
  rw [BitVec.toNat_ofNat, Nat.mod_eq_of_lt (by omega)]

/-- Reading a coordinate word and encoding it again. -/
theorem toQ16_q16 (w : Word) : toQ16 (q16 w) = w := by
  unfold q16
  rw [toQ16_intDiv, BitVec.ofInt_toInt]

/-- Reading a dimension word and encoding it again. -/
theorem toUq16_uq16 (w : Word) : toUq16 (uq16 w) = w := by
  unfold uq16
  rw [toUq16_natDiv, BitVec.ofNat_toNat, BitVec.setWidth_eq]

/-- Every coordinate word holds a legal operand (R80). -/
theorem coordOk_q16 (w : Word) : coordOk (q16 w) = true := by
  have h1 := BitVec.le_toInt w
  have h2 := BitVec.toInt_lt (x := w)
  simp only [coordOk, Bool.and_eq_true, decide_eq_true_eq]
  refine ⟨⟨(onGrid_iff _).2 ⟨w.toInt, rfl⟩, ?_⟩, ?_⟩
  · unfold q16
    rw [le_div_iff₀ (by norm_num)]
    have : (-2147483648 : Rat) ≤ w.toInt := by exact_mod_cast h1
    linarith
  · unfold q16
    rw [div_lt_iff₀ (by norm_num)]
    have : (w.toInt : Rat) < 2147483648 := by exact_mod_cast h2
    linarith

/-- Every dimension word holds a legal operand (R80). -/
theorem dimOk_uq16 (w : Word) : dimOk (uq16 w) = true := by
  have h2 := w.isLt
  simp only [dimOk, Bool.and_eq_true, decide_eq_true_eq]
  refine ⟨⟨(onGrid_iff _).2 ⟨w.toNat, by rw [Int.cast_natCast]; rfl⟩, ?_⟩, ?_⟩
  · unfold uq16
    positivity
  · unfold uq16
    rw [div_lt_iff₀ (by norm_num)]
    have : (w.toNat : Rat) < 4294967296 := by exact_mod_cast h2
    linarith

/-! ### Decoding, said once -/

/-- The defined opcodes (R80). -/
theorem opc_cases {o : BitVec 8} (h : opcDefined o = true) : o = 1 ∨ o = 2 ∨ o = 3 ∨ o = 4 ∨ o = 5 := by
  simpa [opcDefined, or_assoc] using h

/-- What a legal header's operands decode to, by opcode. -/
theorem decodeOperands_ok {h : Word} {ops : List Word} {i : Instr} (hd : decodeOperands h ops = .ok i) :
    ((opc h).toNat = 1 ∧ ∃ w v, ops = [w, v] ∧ i = .init (uq16 w) (uq16 v)) ∨
    ((opc h).toNat = 2 ∧ ops = [] ∧ i = .seton (imm8 h)) ∨
    ((opc h).toNat = 3 ∧ ∃ x y, ops = [x, y] ∧ i = .setpos (q16 x) (q16 y)) ∨
    ((opc h).toNat = 4 ∧ ∃ x0 y0 x1 y1, ops = [x0, y0, x1, y1] ∧
      i = .line (q16 x0) (q16 y0) (q16 x1) (q16 y1) (imm8 h)) ∨
    ((opc h).toNat = 5 ∧ ops = [] ∧ i = .emit) := by
  unfold decodeOperands at hd
  generalize (opc h).toNat = n at hd ⊢
  rcases n with _ | _ | _ | _ | _ | _ | n <;> rcases ops with _ | ⟨a, _ | ⟨b, _ | ⟨c, _ | ⟨d, _ | ⟨e, l⟩⟩⟩⟩⟩ <;>
    cases hd
  all_goals simp

/-- Everything decoding one whole command can answer: the words are a legal header and its operands. -/
theorem decodeCommand_ok {ws : List Word} {i : Instr} (h : decodeCommand ws = .ok i) :
    (∃ w v, ws = [header 0x01 0, w, v] ∧ i = .init (uq16 w) (uq16 v)) ∨
    (∃ imm, ws = [header 0x02 imm] ∧ i = .seton imm) ∨
    (∃ x y, ws = [header 0x03 0, x, y] ∧ i = .setpos (q16 x) (q16 y)) ∨
    (∃ imm x0 y0 x1 y1, ws = [header 0x04 imm, x0, y0, x1, y1] ∧
      i = .line (q16 x0) (q16 y0) (q16 x1) (q16 y1) imm) ∨
    (ws = [header 0x05 0] ∧ i = .emit) := by
  cases ws with
  | nil => simp [decodeCommand] at h
  | cons hd ops =>
    unfold decodeCommand at h
    dsimp only at h
    split_ifs at h with h1 h2 h3
    rw [not_not] at h2
    rw [not_and, not_not] at h3
    have hh := header_of_fields hd h2
    rcases decodeOperands_ok h with ⟨ho, w, v, rfl, rfl⟩ | ⟨ho, rfl, rfl⟩ | ⟨ho, x, y, rfl, rfl⟩ |
      ⟨ho, x0, y0, x1, y1, rfl, rfl⟩ | ⟨ho, rfl, rfl⟩
    · have ho : opc hd = 0x01 := BitVec.eq_of_toNat_eq ho
      rw [ho, h3 (by rw [ho]; rfl)] at hh
      exact .inl ⟨w, v, by rw [hh], rfl⟩
    · have ho : opc hd = 0x02 := BitVec.eq_of_toNat_eq ho
      rw [ho] at hh
      exact .inr (.inl ⟨imm8 hd, by rw [hh], rfl⟩)
    · have ho : opc hd = 0x03 := BitVec.eq_of_toNat_eq ho
      rw [ho, h3 (by rw [ho]; rfl)] at hh
      exact .inr (.inr (.inl ⟨x, y, by rw [hh], rfl⟩))
    · have ho : opc hd = 0x04 := BitVec.eq_of_toNat_eq ho
      rw [ho] at hh
      exact .inr (.inr (.inr (.inl ⟨imm8 hd, x0, y0, x1, y1, by rw [hh], rfl⟩)))
    · have ho : opc hd = 0x05 := BitVec.eq_of_toNat_eq ho
      rw [ho, h3 (by rw [ho]; rfl)] at hh
      exact .inr (.inr (.inr (.inr ⟨by rw [hh], rfl⟩)))

/-- Words that decode begin with one whole command, and the rest are left. -/
theorem decode_ok {ws rest : List Word} {i : Instr} (h : decode ws = .ok (i, rest)) :
    ∃ hd ops, ws = hd :: ops ++ rest ∧ (hd :: ops).length = cmdLen (opc hd) ∧ decodeCommand (hd :: ops) = .ok i := by
  cases ws with
  | nil => simp [decode] at h
  | cons hd tl =>
    unfold decode at h
    dsimp only at h
    split_ifs at h with hl
    split at h
    · rename_i j hj
      injection h with h
      injection h with h1 h2
      subst h1 h2
      obtain ⟨n, hn⟩ := Nat.exists_eq_succ_of_ne_zero (cmdLen_pos (opc hd)).ne'
      refine ⟨hd, tl.take n, ?_, ?_, ?_⟩
      · rw [hn]; simp
      · simp; omega
      · rw [hn] at hj; simpa using hj
    · simp at h

/-! ### Byte transport (R55) -/

theorem word_of_its_bytes (w : Word) :
    (w.extractLsb' 24 8 ++ w.extractLsb' 16 8 ++ w.extractLsb' 8 8 ++ w.extractLsb' 0 8 : BitVec (8 + 8 + 8 + 8))
      = w := by
  ext i hi
  simp only [BitVec.getElem_append, BitVec.getElem_extractLsb']
  have : w.getLsbD i = w[i] := BitVec.getLsbD_eq_getElem hi
  by_cases h8 : i < 8
  · simp [h8, this]
  · by_cases h16 : i < 16
    · rw [dif_neg h8, dif_pos (by omega), show 8 + (i - 8) = i by omega, this]
    · by_cases h24 : i < 24
      · rw [dif_neg h8, dif_neg (by omega), dif_pos (by omega), show 16 + (i - 8 - 8) = i by omega, this]
      · rw [dif_neg h8, dif_neg (by omega), dif_neg (by omega), show 24 + (i - 8 - 8 - 8) = i by omega, this]

end Sys2Proof
end

