-- ==== Sys2Proof/Laws/Fetch.lean ====
section
/-!
SUPPORT. Command assembly: what taking one word does, and taking the words of a whole command or of a part of one.
-/

namespace Sys2Proof.Machine

open Sys2Proof

variable {run : Instr → State → Result State}

/-- A word that leaves the command incomplete only joins PEND (R75). -/
theorem onWordBy_partial {w : Word} {s : State} (h : pendComplete (s.pend ++ [w]) = false) :
    onWordBy run w s = .next { s with pend := s.pend ++ [w] } := by
  unfold onWordBy
  rw [h]
  rfl

/-- The word that completes a command executes it and retires it (R75, R76). -/
theorem onWordBy_complete {w : Word} {s : State} (h : pendComplete (s.pend ++ [w]) = true) :
    onWordBy run w s = retireOutcome (s.pend ++ [w]).length
      (executeBy run (s.pend ++ [w]) { s with pend := s.pend ++ [w] }) := by
  unfold onWordBy
  rw [h]
  rfl

theorem takeWordsBy_partial {w : Word} {ws : List Word} {s : State} (h : pendComplete (s.pend ++ [w]) = false) :
    takeWordsBy run (w :: ws) s = takeWordsBy run ws { s with pend := s.pend ++ [w], input := ws } := by
  rw [takeWordsBy, onWordBy_partial (s := { s with input := ws }) h]
  simp

theorem takeWordsBy_complete {w : Word} {ws : List Word} {s : State} (h : pendComplete (s.pend ++ [w]) = true) :
    takeWordsBy run (w :: ws) s = retireOutcome (s.pend ++ [w]).length
      (executeBy run (s.pend ++ [w]) { s with pend := s.pend ++ [w], input := ws }) := by
  rw [takeWordsBy, onWordBy_complete (s := { s with input := ws }) h]
  cases executeBy run (s.pend ++ [w]) { s with pend := s.pend ++ [w], input := ws } <;> simp [retireOutcome]

theorem pendComplete_iff (h : Word) (ops : List Word) :
    pendComplete (h :: ops) = true ↔ (h :: ops).length = cmdLen (opc h) := by
  simp [pendComplete]

/-- Taking words that end inside the command: all of them join PEND, and nothing executes. -/
theorem takeWordsBy_short {ws : List Word} {s : State} {h : Word} {ops : List Word}
    (heq : s.pend ++ ws = h :: ops) (hlen : (h :: ops).length < cmdLen (opc h)) :
    takeWordsBy run ws s = .next { s with pend := s.pend ++ ws, input := [] } := by
  induction ws generalizing s with
  | nil => simp [takeWordsBy]
  | cons w ws ih =>
    have hp : pendComplete (s.pend ++ [w]) = false := by
      have hl : (s.pend ++ [w]).length ≤ (h :: ops).length := by
        rw [← heq]
        simp
      rcases hpe : s.pend ++ [w] with _ | ⟨h', ops'⟩
      · simp at hpe
      · have : h' = h := by
          have := congrArg List.head? heq
          rw [show s.pend ++ w :: ws = (s.pend ++ [w]) ++ ws by simp, hpe] at this
          simpa using this
        subst this
        rw [hpe] at hl
        rw [Bool.eq_false_iff]
        intro hc
        rw [pendComplete_iff] at hc
        omega
    rw [takeWordsBy_partial hp, ih (s := { s with pend := s.pend ++ [w], input := ws }) (by simpa using heq)]
    simp

/-- Taking words that hold a whole command: it executes with all its words in PEND, the rest stay in the queue,
and it retires (R75, R76). -/
theorem takeWordsBy_command {ws rest : List Word} {s : State} {h : Word} {ops : List Word} (hne : ws ≠ [])
    (heq : s.pend ++ ws = h :: ops) (hlen : (h :: ops).length = cmdLen (opc h)) :
    takeWordsBy run (ws ++ rest) s = retireOutcome (cmdLen (opc h))
      (executeBy run (h :: ops) { s with pend := h :: ops, input := rest }) := by
  induction ws generalizing s with
  | nil => exact absurd rfl hne
  | cons w ws ih =>
    rw [List.cons_append]
    rcases ws with _ | ⟨w', ws⟩
    · rw [List.nil_append, takeWordsBy_complete (by rw [heq, pendComplete_iff, hlen]), heq, hlen]
    · have hp : pendComplete (s.pend ++ [w]) = false := by
        have hl : (s.pend ++ [w]).length < (h :: ops).length := by
          rw [← heq]
          simp
        rcases hpe : s.pend ++ [w] with _ | ⟨h', ops'⟩
        · simp at hpe
        · have : h' = h := by
            have := congrArg List.head? heq
            rw [show s.pend ++ w :: w' :: ws = (s.pend ++ [w]) ++ w' :: ws by simp, hpe] at this
            simpa using this
          subst this
          rw [hpe] at hl
          rw [Bool.eq_false_iff]
          intro hc
          rw [pendComplete_iff] at hc
          omega
      rw [takeWordsBy_partial hp,
        ih (s := { s with pend := s.pend ++ [w], input := w' :: ws ++ rest }) (by simp) (by simpa using heq)]

theorem retireOutcome_next {n : Nat} {o : Result State} {t : State} (h : retireOutcome n o = .next t) :
    ∃ u, o = .next u ∧ t = u.retire n := by
  cases o with
  | next u => exact ⟨u, rfl, by injection h with h; exact h.symm⟩
  | fault r => simp [retireOutcome] at h
  | refused r => simp [retireOutcome] at h

/-- Everything taking words can do: they all join PEND, or a command that they complete executes and retires, with
the words after it still waiting. -/
theorem takeWordsBy_cases {ws : List Word} {s t : State} (h : takeWordsBy run ws s = .next t) :
    (t = { s with pend := s.pend ++ ws, input := [] } ∧
      (pendPartial s.pend = true → pendPartial t.pend = true)) ∨
    ∃ words rest u, pendComplete words = true ∧ rest <:+ ws ∧
      executeBy run words { s with pend := words, input := rest } = .next u ∧ t = u.retire words.length := by
  induction ws generalizing s with
  | nil =>
    refine .inl ?_
    rw [takeWordsBy] at h
    injection h with h
    subst h
    simp
  | cons w ws ih =>
    by_cases hc : pendComplete (s.pend ++ [w]) = true
    · rw [takeWordsBy_complete hc] at h
      obtain ⟨u, hu, ht⟩ := retireOutcome_next h
      exact .inr ⟨_, ws, u, hc, List.suffix_cons w ws, hu, ht⟩
    · rw [Bool.not_eq_true] at hc
      rw [takeWordsBy_partial hc] at h
      rcases ih h with ⟨ht, hp⟩ | ⟨words, rest, u, h1, h2, h3, h4⟩
      · refine .inl ⟨by simpa using ht, fun hs => hp ?_⟩
        change pendPartial (s.pend ++ [w]) = true
        rcases hsp : s.pend with _ | ⟨a, l⟩
        · rw [hsp] at hc
          have := cmdLen_pos (opc w)
          simp only [List.nil_append, pendComplete, pendPartial, List.length_singleton, beq_eq_false_iff_ne,
            decide_eq_true_eq] at hc ⊢
          omega
        · rw [hsp] at hc hs
          simp only [List.cons_append, pendComplete, pendPartial, List.length_cons, List.length_append,
            List.length_nil, beq_eq_false_iff_ne, decide_eq_true_eq] at hc hs ⊢
          omega
      · exact .inr ⟨words, rest, u, h1, h2.trans (List.suffix_cons w ws), by simpa using h3, h4⟩

/-- With words waiting, a step takes them. -/
theorem fetchStepBy_of_input {s : State} (h : s.input ≠ []) : fetchStepBy run s = takeWordsBy run s.input s := by
  unfold fetchStepBy
  cases hi : s.input with
  | nil => exact absurd hi h
  | cons w ws => rfl

/-- With no word waiting and none pending, a step does nothing (R219). -/
theorem fetchStepBy_idle {s : State} (h : s.input = []) (hp : s.pend = []) : fetchStepBy run s = .next s := by
  unfold fetchStepBy
  rw [h, hp]
  rfl

/-- With words waiting that complete a command, in whichever split, a step executes and retires it. -/
theorem fetchStepBy_command {ws rest : List Word} {s : State} {h : Word} {ops : List Word} (hne : ws ≠ [])
    (hin : s.input = ws ++ rest) (heq : s.pend ++ ws = h :: ops) (hlen : (h :: ops).length = cmdLen (opc h)) :
    fetchStepBy run s = retireOutcome (cmdLen (opc h))
      (executeBy run (h :: ops) { s with pend := h :: ops, input := rest }) := by
  rw [fetchStepBy_of_input (by simp [hin, hne]), hin, takeWordsBy_command hne heq hlen]

/-- Everything a step can do when it answers a next state. -/
theorem fetchStepBy_cases {s t : State} (h : fetchStepBy run s = .next t) :
    (t = s ∧ s.input = [] ∧ s.pend = []) ∨
    (s.input ≠ [] ∧ t = { s with pend := s.pend ++ s.input, input := [] } ∧
      (pendPartial s.pend = true → pendPartial t.pend = true)) ∨
    ∃ words rest u, pendComplete words = true ∧ rest <:+ s.input ∧
      executeBy run words { s with pend := words, input := rest } = .next u ∧ t = u.retire words.length := by
  by_cases hi : s.input = []
  · unfold fetchStepBy at h
    rw [hi] at h
    by_cases hp : s.pend = []
    · rw [if_pos hp] at h
      injection h with h
      exact .inl ⟨h.symm, hi, hp⟩
    · rw [if_neg hp] at h
      simp at h
  · rw [fetchStepBy_of_input hi] at h
    rcases takeWordsBy_cases h with ⟨h1, h2⟩ | h1
    · exact .inr (.inl ⟨hi, h1, h2⟩)
    · exact .inr (.inr h1)

/-- What executing a whole command does to the state outside the beam and the frame, for any parameters: one error,
or none. -/
theorem executeBy_cases {p : Params} {ws : List Word} {s t : State} (h : executeBy (execWith p) ws s = .next t) :
    (∃ e, t = raise e s) ∨
    (t.status = s.status ∧ t.firstErrCause = s.firstErrCause ∧ t.firstErrCwp = s.firstErrCwp ∧ t.cwp = s.cwp ∧
      t.pend = s.pend ∧ t.input = s.input ∧ s.drawn ≤ t.drawn ∧
      ∃ l, t.trace = s.trace ++ l ∧ ∀ ev ∈ l, ev.isError = false) := by
  unfold executeBy at h
  split at h
  · exact execWith_cases h
  · injection h with h
    exact .inl ⟨_, h.symm⟩

/-! ### This hardware's instances, by the names `step`, `onWord` and `execute` -/

theorem onWord_partial {w : Word} {s : State} (h : pendComplete (s.pend ++ [w]) = false) :
    onWord w s = .next { s with pend := s.pend ++ [w] } := onWordBy_partial h

theorem onWord_complete {w : Word} {s : State} (h : pendComplete (s.pend ++ [w]) = true) :
    onWord w s = retireOutcome (s.pend ++ [w]).length
      (execute (s.pend ++ [w]) { s with pend := s.pend ++ [w] }) := onWordBy_complete h

theorem step_idle {s : State} (h : s.input = []) (hp : s.pend = []) : step s = .next s := fetchStepBy_idle h hp

theorem step_command {ws rest : List Word} {s : State} {h : Word} {ops : List Word} (hne : ws ≠ [])
    (hin : s.input = ws ++ rest) (heq : s.pend ++ ws = h :: ops) (hlen : (h :: ops).length = cmdLen (opc h)) :
    step s = retireOutcome (cmdLen (opc h)) (execute (h :: ops) { s with pend := h :: ops, input := rest }) :=
  fetchStepBy_command hne hin heq hlen

theorem step_short {s : State} {h : Word} {ops : List Word} (hne : s.input ≠ [])
    (heq : s.pend ++ s.input = h :: ops) (hlen : (h :: ops).length < cmdLen (opc h)) :
    step s = .next { s with pend := s.pend ++ s.input, input := [] } :=
  (fetchStepBy_of_input hne).trans (takeWordsBy_short heq hlen)

theorem step_cases {s t : State} (h : step s = .next t) :
    (t = s ∧ s.input = [] ∧ s.pend = []) ∨
    (s.input ≠ [] ∧ t = { s with pend := s.pend ++ s.input, input := [] } ∧
      (pendPartial s.pend = true → pendPartial t.pend = true)) ∨
    ∃ words rest u, pendComplete words = true ∧ rest <:+ s.input ∧
      execute words { s with pend := words, input := rest } = .next u ∧ t = u.retire words.length :=
  fetchStepBy_cases h

theorem execute_cases {ws : List Word} {s t : State} (h : execute ws s = .next t) :
    (∃ e, t = raise e s) ∨
    (t.status = s.status ∧ t.firstErrCause = s.firstErrCause ∧ t.firstErrCwp = s.firstErrCwp ∧ t.cwp = s.cwp ∧
      t.pend = s.pend ∧ t.input = s.input ∧ s.drawn ≤ t.drawn ∧
      ∃ l, t.trace = s.trace ++ l ∧ ∀ ev ∈ l, ev.isError = false) := by
  unfold execute at h
  rw [exec_eq_execWith] at h
  exact executeBy_cases h

end Sys2Proof.Machine
end

