-- ==== Sys2Proof/Laws/PerInstr.lean ====
section
/-!
SUPPORT. Statements made per command, one lemma a constructor (LAWS.json "per_instruction").
-/

namespace Sys2Proof.Laws

open Sys2Proof

/-- The words the encoder writes start with a legal header of the command's own length (R71, R73, R74). -/
def EncodedHeader.Statement (i : Instr) : Prop :=
  ∃ h ops, encode i = h :: ops ∧ (encode i).length = cmdLen (opc h) ∧ opcDefined (opc h) = true ∧ rsv h = 0 ∧
    (imm8MustBeZero (opc h) = true → imm8 h = 0)

theorem EncodedHeader.init (w h : Rat) : EncodedHeader.Statement (.init w h) :=
  ⟨_, _, rfl, by simp [encode, cmdLen], by simp [opcDefined], by simp, by simp⟩

theorem EncodedHeader.seton (i : BitVec 8) : EncodedHeader.Statement (.seton i) :=
  ⟨_, _, rfl, by simp [encode, cmdLen], by simp [opcDefined], by simp, by simp [imm8MustBeZero]⟩

theorem EncodedHeader.setpos (x y : Rat) : EncodedHeader.Statement (.setpos x y) :=
  ⟨_, _, rfl, by simp [encode, cmdLen], by simp [opcDefined], by simp, by simp⟩

theorem EncodedHeader.line (x0 y0 x1 y1 : Rat) (c : BitVec 8) :
    EncodedHeader.Statement (.line x0 y0 x1 y1 c) :=
  ⟨_, _, rfl, by simp [encode, cmdLen], by simp [opcDefined], by simp, by simp [imm8MustBeZero]⟩

theorem EncodedHeader.emit : EncodedHeader.Statement .emit :=
  ⟨_, _, rfl, by simp [encode, cmdLen], by simp [opcDefined], by simp, by simp⟩

end Sys2Proof.Laws
end

