-- ==== Sys2Proof/Tests/Slice0.lean ====
section
/-!
SUPPORT. The model's own tests. Expected results come from the spec: the words of 30_encoding.md R71 to R73 and R86
and the vectors of 95_test_vectors.md, named at each test; and, for each statement with hypotheses, a state and
operands that meet them together.
-/

set_option Elab.async false

namespace Sys2Proof.Tests

open Sys2Proof Sys2Proof.Machine

/-- The state the vectors of 95_test_vectors.md section 2.1 start in: after `INIT 4095, 4095` from reset. -/
def ready : State :=
  { State.reset with initDone := true, scale := 1, sampleRate := 20000, devCount := 1, cwp := 3 }

/-- The beam at a point with an intensity. -/
def beamAt (x y : Rat) (i : BitVec 8) : State := { ready with posX := x, posY := y, intensity := i }

/-- A frame of one sample. -/
def oneSample : State := { ready with fbCount := 1, fb := [(0, ⟨5, 6, 7⟩)] }

/-- A full buffer that has lost `n` samples; only its counters matter. -/
def overrun (n : Word) : State := { ready with fbCount := 131072, fbOverflow := n }

/-- Fixed answers for the next calls. -/
def answers (status : DevStatus) : Script :=
  { Script.empty with opens := [1], statuses := [status], writes := [.failure] }

/-- One field of the next state, if there is one. -/
def after {α : Type} (f : State → α) : Result State → Option α
  | .next s => some (f s)
  | .fault _ => none
  | .refused _ => none

/-- The samples of the frame, in order. -/
def frame (s : State) : List Sample := s.fb.map Prod.snd

/-! ### WellFormed refuses what no word can hold (R72, R83) -/

theorem test_wf_dim_negative : (Instr.init (-1) 1).WellFormed = false := by decide +kernel
theorem test_wf_dim_too_large : (Instr.init 1 65536).WellFormed = false := by decide +kernel
theorem test_wf_dim_off_grid : (Instr.init (1 / 131072) 1).WellFormed = false := by decide +kernel
theorem test_wf_coord_too_small : (Instr.setpos (-32768 - 1 / 65536) 0).WellFormed = false := by decide +kernel
theorem test_wf_coord_too_large : (Instr.setpos 0 32768).WellFormed = false := by decide +kernel
theorem test_wf_coord_off_grid : (Instr.setpos (1 / 10) 0).WellFormed = false := by decide +kernel
theorem test_wf_line_operands :
    (Instr.line 32768 0 0 0 1).WellFormed = false ∧ (Instr.line 0 32768 0 0 1).WellFormed = false ∧
    (Instr.line 0 0 (1 / 3) 0 1).WellFormed = false ∧ (Instr.line 0 0 0 (-40000) 1).WellFormed = false := by
  decide +kernel
theorem test_wf_bounds :
    (Instr.init 0 (65536 - 1 / 65536)).WellFormed = true ∧
    (Instr.line (-32768) (32768 - 1 / 65536) 0 (15 / 2) 255).WellFormed = true ∧
    (Instr.seton 255).WellFormed = true ∧ Instr.emit.WellFormed = true := by decide +kernel

/-! ### Decoding words written out from R71 to R73 -/

-- W = 8190 (0x1FFE.0000), H = 4095 (0x0FFF.0000): vector I2's words.
theorem test_decode_init :
    (decode [0x00000001, 0x1FFE0000, 0x0FFF0000]).toOption = some (.init 8190 4095, []) := by decide +kernel
-- A D word is unsigned: section 2.1's operand table, 0xFFFFFFFF.
theorem test_decode_init_unsigned :
    (decode [0x00000001, 0xFFFFFFFF, 0x80000000]).toOption =
      some (.init (4294967295 / 65536) 32768, []) := by decide +kernel
-- OPC 0x02, IMM8 = 200 (0xC8): section 2.3.
theorem test_decode_seton : (decode [0x0000C802, 0x00000005]).toOption = some (.seton 200, [0x00000005]) := by
  decide +kernel
-- A C word is signed: section 2.1's operand table, 0x80000000 and 0xFFFFFFFF.
theorem test_decode_setpos :
    (decode [0x00000003, 0x80000000, 0xFFFFFFFF]).toOption = some (.setpos (-32768) (-1 / 65536), []) := by
  decide +kernel
-- X0, Y0, X1, Y1 in that order, c = 0x11.
theorem test_decode_line :
    (decode [0x00001104, 0x00010000, 0x00020000, 0x00030000, 0x00048000]).toOption =
      some (.line 1 2 3 (9 / 2) 0x11, []) := by decide +kernel
theorem test_decode_emit : (decode [0x00000005]).toOption = some (.emit, []) := by decide +kernel
-- Vectors D1 to D3, D4 to D7.
theorem test_decode_reserved_opcodes :
    decodeCommand [0x00000000] = .error .reservedOpcode ∧ decodeCommand [0x00000006] = .error .reservedOpcode ∧
    decodeCommand [0x000000FF] = .error .reservedOpcode := ⟨rfl, rfl, rfl⟩
theorem test_decode_reserved_fields :
    decodeCommand [0x00010005] = .error .reservedFields ∧
    decodeCommand [0x00000103, 0, 0] = .error .reservedFields ∧
    decodeCommand [0x80000004, 0, 0, 0, 0] = .error .reservedFields ∧
    decodeCommand [0x00000101, 0x00010000, 0x00010000] = .error .reservedFields ∧
    decodeCommand [0x00000105] = .error .reservedFields := ⟨rfl, rfl, rfl, rfl, rfl⟩
-- Vector D14's words: two of LINE's five are missing.
theorem test_decode_incomplete : decode [0x00000204, 0x00000001, 0x00000002] = .error .incomplete := rfl
-- R55: the header of SETON 255 as bytes, least significant first.
theorem test_decode_bytes : (decodeBytes [0x02, 0xFF, 0x00, 0x00, 0x05]).toOption = some (.seton 255, []) := by
  decide +kernel
-- A row's header bits with operand words of zeros.
theorem test_decode_table_words :
    decodeTableWord 32 0x00000001 = some (.init 0 0) ∧ decodeTableWord 32 0x0000FF02 = some (.seton 255) ∧
    decodeTableWord 32 0x00000003 = some (.setpos 0 0) ∧ decodeTableWord 32 0x0000AA04 = some (.line 0 0 0 0 0xAA) ∧
    decodeTableWord 32 0x00000005 = some .emit ∧ decodeTableWord 32 0x00000007 = none := by decide +kernel

/-! ### Operations -/

/-- Section 2.4's table S1 to S11 and S14 to S17. -/
theorem test_steps :
    steps 0 0 5 = 0 ∧ steps 5 0 5 = 1 ∧ steps 3 4 5 = 1 ∧ steps 3 4 10 = 1 ∧ steps 6 8 5 = 2 ∧ steps 6 8 10 = 1 ∧
    steps (5 + 1 / 65536) 0 5 = 2 ∧ steps 10 0 10 = 1 ∧ steps (21 / 2) 0 10 = 2 ∧ steps 100 100 10 = 15 ∧
    steps 100 100 5 = 29 ∧ steps 1 1 5 = 1 ∧ steps (1 / 2) 0 5 = 1 ∧ steps 12 0 5 = 3 ∧ steps (-10) 0 5 = 2 := by
  decide +kernel

/-- Vector A1: eleven appends into a buffer of eight. -/
theorem test_append_overrun :
    let s := appendAll { Params.hw with fbCapacity := 8 }
      ((List.range 11).map fun k => ⟨k, k, 1⟩) State.reset
    (s.fbCount, s.fbOverflow, s.fb.get? 0, s.fb.get? 7, s.fb.get? 8) =
      (8, 3, some ⟨0, 0, 1⟩, some ⟨7, 7, 1⟩, none) := by decide +kernel

/-- Vector A2: the loss count saturates. -/
theorem test_append_saturates :
    (append Params.hw ⟨1, 2, 3⟩ (overrun 0xFFFFFFFF)).fbOverflow = 0xFFFFFFFF := by decide +kernel

/-- The continuity tolerance of L5 (dist² = 1, near) and L6 (9/8, not near). -/
theorem test_near_boundary :
    near Params.hw ⟨50, 5⟩ ⟨51, 5⟩ = true ∧ near Params.hw ⟨50, 5⟩ ⟨203 / 4, 23 / 4⟩ = false := by decide +kernel

/-- R53, R54: X in bits 11:0, Y in 23:12, power in 31:24. -/
theorem test_wire_form :
    wireOf Params.hw ⟨0xABC, 0x123, 0x45⟩ = ⟨48, 0x000045123ABC⟩ ∧
    wireBytes ⟨48, 0x000045123ABC⟩ = [0xBC, 0x3A, 0x12, 0x45, 0x00, 0x00] := by decide +kernel

/-- R8: CW where MAX_COORD + 1 is a power of two, and just past it. -/
theorem test_widths :
    ceilLog2 4096 = 12 ∧ ceilLog2 4097 = 13 ∧ ceilLog2 1 = 0 ∧ ceilLog2 2 = 1 ∧ ceilLog2 131073 = 18 := by
  decide +kernel

/-- R83, R84: case, blanks, comments, a fraction, a sign and a pseudo-instruction. -/
theorem test_assemble :
    (assemble "  setpos 7.5, 0.25 ; move\n\nJUMP 20,0\nline -1, 0, 0, 0, 0x1").toOption =
      some [0x00000003, 0x00078000, 0x00004000, 0x00000002, 0x00000003, 0x00140000, 0x00000000,
        0x00000104, 0xFFFF0000, 0x00000000, 0x00000000, 0x00000000] := by decide +kernel

/-- R83: refused, never rounded. -/
theorem test_assemble_refuses : (assemble "SETPOS 0.1, 0").toOption = none := by decide +kernel

/-! ### One step of each command -/

/-- Vector I2: SCALE 1/2, and the device count the script fixes. -/
theorem test_init_scale :
    after (fun s => (s.scale, s.sampleRate, s.initDone, s.devCount))
      (exec (.init 8190 4095) { State.reset with script := answers .ready }) = some (1 / 2, 20000, true, 1) := by
  decide +kernel

/-- Vector I5: PARAM. -/
theorem test_init_param :
    after (fun s => (s.status, s.trace, s.initDone, s.cwp)) (step (State.reset.withFetchWord 32 0x00000001)) =
      some (0x8, [.error 4 0], false, 3) := by decide +kernel

/-- Vector D8: SETON 1 at the origin. -/
theorem test_seton_turns_on :
    after (fun s => (frame s, s.intensity, s.cwp)) (step (ready.withFetchWord 32 0x00000102)) =
      some ([⟨0, 0, 1⟩, ⟨0, 0, 1⟩, ⟨0, 0, 1⟩, ⟨0, 0, 1⟩], 1, 4) := by decide +kernel

/-- Vector O5: within the ON class nothing happens. -/
theorem test_seton_within_class :
    after (fun s => (s.intensity, s.fbCount)) (exec (.seton 200) (beamAt (37 / 10) (46 / 5) 10)) = some (10, 0) := by
  decide +kernel

/-- Vector M10: the floored points of a lit move. -/
theorem test_setpos_floors :
    after (fun s => (frame s, s.posX)) (exec (.setpos (79 / 10) (79 / 10)) (beamAt (9 / 10) (9 / 10) 255)) =
      some ([⟨4, 4, 255⟩, ⟨7, 7, 255⟩, ⟨7, 7, 255⟩, ⟨7, 7, 255⟩], 79 / 10) := by decide +kernel

/-- Vector D10: RANGE just past MAX_COORD. -/
theorem test_setpos_range :
    after (fun s => (s.status, s.firstErrCause, s.firstErrCwp, s.fbCount)) (exec (.setpos (4095 + 1 / 65536) 0) ready)
      = some (0x4, 3, 3, 0) := by decide +kernel

/-- Vector L1: all four blocks of a discontinuous line. -/
theorem test_line_discontinuous :
    after frame (exec (.line 20 0 30 0 255) (beamAt 0 0 255)) =
      some [⟨0, 0, 0⟩, ⟨0, 0, 0⟩, ⟨0, 0, 0⟩, ⟨0, 0, 0⟩, ⟨10, 0, 0⟩, ⟨20, 0, 0⟩, ⟨20, 0, 0⟩, ⟨20, 0, 255⟩,
        ⟨20, 0, 255⟩, ⟨20, 0, 255⟩, ⟨20, 0, 255⟩, ⟨25, 0, 255⟩, ⟨30, 0, 255⟩, ⟨30, 0, 255⟩, ⟨30, 0, 255⟩] := by
  decide +kernel

/-- Vector L4: a continuous line moves from POS, not from p0, and lights up. -/
theorem test_line_continuous :
    after frame (exec (.line (81 / 2) (11 / 2) 50 5 100) (beamAt 40 5 0)) =
      some [⟨40, 5, 100⟩, ⟨40, 5, 100⟩, ⟨40, 5, 100⟩, ⟨40, 5, 100⟩, ⟨45, 5, 100⟩, ⟨50, 5, 100⟩, ⟨50, 5, 100⟩,
        ⟨50, 5, 100⟩] := by decide +kernel

/-- Vectors E2 and E9: one poll, one hand-over, whatever it answers. -/
theorem test_emit_ready :
    after (fun s => (s.trace, s.fbCount)) (exec .emit { oneSample with script := answers .ready }) =
      some ([.callStatus 0 .ready, .callWrite 0 20000 ⟨true, true⟩ [wireOf Params.hw ⟨5, 6, 7⟩] 1 .failure], 0) := by
  decide +kernel

/-- Vector E5's pattern: a busy device, and a loss to warn of. -/
theorem test_emit_busy_overrun :
    after (fun s => (s.trace, s.fbOverflow))
      (exec .emit { oneSample with fbOverflow := 2, script := answers .busy }) =
      some ([.callStatus 0 .busy, .warnOverrun 2], 0) := by decide +kernel

/-! ### Other parameters: program P2's FB_CAPACITY = 8 -/

/-- This hardware but for a buffer of eight samples. -/
def small : Params := { Params.hw with fbCapacity := 8 }

/-- Program P2 before its SETPOS: four samples of SETON 10 in the frame. -/
def p2 : State :=
  { beamAt 0 0 10 with fbCount := 4, fb := [(0, ⟨0, 0, 10⟩), (1, ⟨0, 0, 10⟩), (2, ⟨0, 0, 10⟩), (3, ⟨0, 0, 10⟩)] }

/-- P2's SETPOS 20, 0: the four move samples are kept, the two settle samples are lost. -/
theorem test_small_setpos :
    after (fun s => ((frame s).drop 4, s.fbCount, s.fbOverflow, s.posX))
      (stepWith small { p2 with input := [0x00000003, 0x00140000, 0x00000000] }) =
      some ([⟨5, 0, 10⟩, ⟨10, 0, 10⟩, ⟨15, 0, 10⟩, ⟨20, 0, 10⟩], 8, 2, 20) := by decide +kernel

/-- P2's EMIT to a ready device: eight samples at most, and WARN_OVERRUN(2). -/
theorem test_small_emit :
    after (fun s => (s.trace, s.fbOverflow))
      (stepWith small { oneSample with input := [0x00000005], fbOverflow := 2, script := answers .ready }) =
      some ([.callStatus 0 .ready, .callWrite 0 20000 ⟨true, true⟩ [wireOf small ⟨5, 6, 7⟩] 1 .failure, .warnOverrun 2], 0)
      := by decide +kernel

/-- R7, R8: with MAX_COORD = 9999 a coordinate past 4095 is a sample's coordinate, and 10000 is out of range. -/
theorem test_wide_coordinates :
    after frame (execWith { Params.hw with maxCoord := 9999 } (.setpos 9000 8000) (beamAt 8991 8000 7)) =
      some [⟨8995, 8000, 7⟩, ⟨9000, 8000, 7⟩, ⟨9000, 8000, 7⟩, ⟨9000, 8000, 7⟩] ∧
    after (fun s => s.firstErrCause)
      (execWith { Params.hw with maxCoord := 9999 } (.setpos 10000 0) (beamAt 0 0 7)) = some 3 := by decide +kernel

/-- Vector L3': RASTER_SETON_ALWAYS = false draws a colour-0 continuous line lit. -/
theorem test_literal_line :
    after (fun s => (frame s, s.intensity))
      (execWith { Params.hw with rasterSetonAlways := false } (.line 30 5 40 5 0) (beamAt 30 5 255)) =
      some ([⟨35, 5, 255⟩, ⟨40, 5, 255⟩, ⟨40, 5, 255⟩, ⟨40, 5, 255⟩], 255) := by decide +kernel

/-! ### The hypotheses of the statements can be met -/

theorem oneSample_inv : oneSample.Inv Params.hw where
  count_le := by decide
  overflow_full := by decide
  posX_range := by decide +kernel
  posY_range := by decide +kernel
  scale_pos := by decide +kernel
  rate_default := by decide
  status_zero_iff := by decide
  status_reserved := by decide
  cause_le := by decide
  errCwp_zero := by decide
  pend_partial := by decide
  fb_wf := by decide
  frame_written := by
    intro i hi
    have : i = 0 := Nat.lt_one_iff.1 hi
    subst this
    rfl
  samples_range := by decide

/-- DecodeOfEncodeIsIdentity, PseudoInstructionsExpand. -/
theorem witness_well_formed :
    (Instr.line (-32768) (32768 - 1 / 65536) 0 (15 / 2) 255).WellFormed = true ∧ coordOk (-32768) = true ∧
    coordOk (32768 - 1 / 65536) = true := by decide +kernel

/-- EncodeOfDecodeIsIdentity. -/
theorem witness_decodes :
    decode [0x00000005, 0x00000007] = .ok (.emit, [0x00000007]) ∧ decodeCommand [0x00000005] = .ok .emit := ⟨rfl, rfl⟩

/-- OpcodeRowsDecideLegality: a header of each row, at the ends of IMM8's range. -/
theorem witness_rows :
    opcodeTable.map (fun r => r.selects r.pattern) = [true, true, true, true, true] ∧
    (opcodeTable.map fun r => r.selects 0x0000FF02) = [false, true, false, false, false] ∧
    (opcodeTable.map fun r => r.selects 0x0000FF04) = [false, false, false, true, false] ∧
    (opcodeTable.map fun r => r.selects 0x0000FF05) = [false, false, false, false, false] := by decide +kernel

/-- ByteTransportDeliversWords: the longest tail. -/
theorem witness_tail : [0x01#8, 0x02#8, 0x03#8].length < 4 := by decide

/-- AssemblerNeverRounds: a command that has words, and one with a number that no word holds. -/
theorem witness_off_grid :
    asmCommand (.seton 7) = .ok [0x00000702] ∧
    ∀ ws : List Word, decode ws ≠ .ok (.setpos (1 / 131072) 0, []) := by
  refine ⟨rfl, fun ws h => ?_⟩
  obtain ⟨_, _, -, -, hc⟩ := decode_ok h
  have hx : ∀ w : Word, q16 w ≠ 1 / 131072 := fun w hw => by
    have := coordOk_q16 w
    rw [hw] at this
    revert this
    decide +kernel
  rcases decodeCommand_ok hc with ⟨_, _, -, h⟩ | ⟨_, -, h⟩ | ⟨w, _, -, h⟩ | ⟨_, _, _, _, _, -, h⟩ | ⟨-, h⟩
  · cases h
  · cases h
  · injection h with h
    exact hx w h.symm
  · cases h
  · cases h

/-- FormingASampleFloors, StepLaws, DiscontinuousLine: this hardware's parameters, the corner of the range. -/
theorem witness_params_and_corner :
    Params.hw.Wf ∧ (0 : Rat) ≤ 4095 ∧ (4095 : Rat) ≤ Params.hw.maxCoord := by decide +kernel

/-- ResetLeaves: a first word that is a header of more than one word, and of one. -/
theorem witness_first_headers : 1 < cmdLen (opc 0x00000004) ∧ cmdLen (opc 0x00000005) = 1 := by decide

/-- StepKeepsInvariants, TraceOnlyGrows, ErrorRegistersAreSticky: a step from a state that meets the invariants, and
one in which an error is already recorded. -/
theorem witness_step :
    oneSample.Inv Params.hw ∧ step oneSample = .next oneSample ∧
    step { oneSample with status := 1, firstErrCause := 1 } =
      .next { oneSample with status := 1, firstErrCause := 1 } := ⟨oneSample_inv, rfl, rfl⟩

/-- StepRunsTheDecodedCommand: SETPOS arrives with one word already pending, or whole. -/
theorem witness_split :
    (Instr.setpos 1 2).WellFormed = true ∧
    encode (.setpos 1 2) = [0x00000003] ++ [0x00010000, 0x00020000] ∧
    encode (.setpos 1 2) = [] ++ [0x00000003, 0x00010000, 0x00020000] ∧
    ({ ready with pend := [0x00000003], input := [0x00010000, 0x00020000] ++ [0x00000005] } : State).pend =
      [0x00000003] := by decide +kernel

/-- IllegalHeadersRaiseIllegal and CwpAdvancesByTheLength: headers at the ends of each clause, with all the words of
their command. -/
theorem witness_illegal_headers :
    ([0x00000000#32, 0x00000006#32, 0x000000FF#32].map fun h => (cmdLen (opc h), opcDefined (opc h))) =
      [(1, false), (1, false), (1, false)] ∧
    ([0x00010005#32, 0x80000002#32].map fun h => (cmdLen (opc h), rsv h)) = [(1, 1), (1, 0x8000)] ∧
    ([0x00000101#32, 0x0000FF03#32, 0x00000105#32].map fun h => (cmdLen (opc h), opc h, imm8 h)) =
      [(3, 1, 1), (3, 3, 0xFF), (1, 5, 1)] ∧
    ([0x00000001#32, 0x0000FF02#32, 0x00000005#32].map fun h => (opc h, rsv h, imm8 h)) =
      [(1, 0, 0), (2, 0, 0xFF), (5, 0, 0)] := by decide +kernel

/-- CwpAdvancesByTheLength: the largest FB_COUNT, an error recorded first, and an illegal command in a split. -/
theorem witness_cwp :
    (overrun 0).fbCount ≤ Params.hw.fbCapacity ∧ ready.firstErrCause = 0 ∧
    after (fun s => (s.firstErrCause, s.firstErrCwp, s.cwp)) (step { ready with input := [0x00000006] }) =
      some (1, 3, 4) ∧
    after (fun s => (s.firstErrCause, s.pend, s.cwp))
      (step { ready with pend := [0x00010003, 7], input := [8, 9] }) = some (1, [], 6) := by decide +kernel

/-- PartOfACommandHasNoEffect: vector D14, an idle CORE, and a stream that has ended inside a command. -/
theorem witness_partial :
    after (fun s => (s.pend, s.cwp)) (step { ready with input := [0x00000204, 1, 2] }) =
      some ([0x00000204, 1, 2], 3) ∧
    [0x00000204#32, 1#32, 2#32].length < cmdLen (opc 0x00000204) ∧
    ready.input = [] ∧ ready.pend = [] ∧
    step { ready with pend := [0x00000003] } = .fault .streamEndsInsideCommand := by
  refine ⟨by decide +kernel, by decide, rfl, rfl, rfl⟩

/-- CommandsBeforeInitRaiseNotInit, and the states in which the other commands' statements start. -/
theorem witness_init_done : State.reset.initDone = false ∧ ready.initDone = true := ⟨rfl, rfl⟩

/-- OutOfRangeTargetsRaiseRange: just past each bound; the bounds themselves are in range. -/
theorem witness_range :
    (-1 / 65536 : Rat) < 0 ∧ (4095 : Rat) < 4095 + 1 / 65536 ∧ (4095 : Rat) < (4095 + 1 / 65536) * ready.scale ∧
    inRange Params.hw ⟨0, 4095⟩ = true ∧ inRange Params.hw ⟨-1 / 65536, 0⟩ = false ∧
    inRange Params.hw ⟨0, 4095 + 1 / 65536⟩ = false := by decide +kernel

/-- ErrorPriority: vectors D15, D16, D17 and D10, one for each clause. -/
theorem witness_priority :
    opcDefined (opc 0x00000000) = false ∧
    (opcDefined (opc 0x00010005) = true ∧ rsv 0x00010005 ≠ 0) ∧
    (imm8MustBeZero (opc 0x00000105) = true ∧ imm8 0x00000105 ≠ 0) ∧
    (decodeCommand [0x00000104, 0xFFFF0000, 0, 0, 0]).toOption = some (.line (-1) 0 0 0 1) ∧
    (decodeCommand [0x00000001, 0, 0]).toOption = some (.init 0 0) ∧
    (decodeCommand [0x00000003, 0x0FFF0001, 0]).toOption = some (.setpos (4095 + 1 / 65536) 0) ∧
    inRange Params.hw ⟨-1 * ready.scale, 0 * ready.scale⟩ = false := by decide +kernel

/-- ErrorsArePrecise, RegistersAreWrittenByTheirCommandsOnly, EveryCommandCompletes: a command that answers a next
state, in one that records an error and in one that does not. -/
theorem witness_exec :
    exec .emit State.reset = .next (raise .notInit State.reset) ∧ exec .emit ready = .next ready ∧
    ready.fbCount ≤ 131072 := ⟨rfl, rfl, by decide⟩

/-- AppendKeepsOrCounts: the last free entry, a full buffer, and the loss count at both sides of its limit. -/
theorem witness_append :
    131071 < Params.hw.fbCapacity ∧ Params.hw.fbCapacity ≤ (overrun 0xFFFFFFFE).fbCount ∧
    (overrun 0xFFFFFFFE).fbOverflow < 0xFFFFFFFF ∧ (overrun 0xFFFFFFFF).fbOverflow = 0xFFFFFFFF := by decide

/-- RetentionLaw. -/
theorem witness_empty_frame :
    State.reset.fbCount = 0 ∧ State.reset.fbOverflow = 0 ∧ (1 : Nat) ≤ min 1 Params.hw.fbCapacity := by decide

/-- SetonSwitchesTheBeam in both directions, SetonWithinAClassDoesNothing in both classes. -/
theorem witness_classes :
    ¬ ((1 : BitVec 8) ≠ 0 ↔ ready.intensity ≠ 0) ∧ ¬ ((0 : BitVec 8) ≠ 0 ↔ (beamAt 0 0 1).intensity ≠ 0) ∧
    ((255 : BitVec 8) ≠ 0 ↔ (beamAt 0 0 1).intensity ≠ 0) ∧ ((0 : BitVec 8) ≠ 0 ↔ ready.intensity ≠ 0) := by decide

/-- StepCountIsLeast, with a k that passes. -/
theorem witness_step_count :
    0 < 5 ∧ (3 : Rat) ^ 2 + 4 ^ 2 ≤ (((1 : Nat) : Rat) * ((5 : Nat) : Rat)) ^ 2 := by decide +kernel

/-- StepLaws: a lit move of two steps, and a path of as many points that is fine enough. -/
theorem witness_step_laws :
    Params.hw.Wf ∧ 5 = (if (beamAt 0 0 255).intensity ≠ 0 then Params.hw.maxStepOn else Params.hw.maxStepOff) ∧
    2 = steps (10 - (beamAt 0 0 255).posX) (0 - (beamAt 0 0 255).posY) 5 ∧
    ((10 - (beamAt 0 0 255).posX) ^ 2 + (0 - (beamAt 0 0 255).posY) ^ 2) / ((2 : Nat) : Rat) ^ 2 ≤
      ((5 : Nat) : Rat) ^ 2 := by
  decide +kernel

/-- LargestMove: two corners. -/
theorem witness_corners : inRange Params.hw ⟨0, 0⟩ = true ∧ inRange Params.hw ⟨4095, 4095⟩ = true := by
  decide +kernel

/-- DiscontinuousLine (L6: just past the tolerance) and ContinuousLine (L5: exactly at it), both classes. -/
theorem witness_line :
    ((Params.hw.contTol : Rat) ^ 2 < dist2 ⟨50, 5⟩ ⟨203 / 4 * ready.scale, 23 / 4 * ready.scale⟩) ∧
    dist2 ⟨50, 5⟩ ⟨51 * ready.scale, 5 * ready.scale⟩ ≤ 1 ∧
    inRange Params.hw ⟨203 / 4 * ready.scale, 23 / 4 * ready.scale⟩ = true ∧
    inRange Params.hw ⟨51 * ready.scale, 5 * ready.scale⟩ = true ∧
    (if ((255 : BitVec 8) ≠ 0 ↔ (beamAt 50 5 10).intensity ≠ 0) then (beamAt 50 5 10).intensity else 255) = 10 ∧
    (if ((255 : BitVec 8) ≠ 0 ↔ (beamAt 50 5 0).intensity ≠ 0) then (beamAt 50 5 0).intensity else 255) = 255 := by
  decide +kernel

/-- StepRunsTheDecodedCommandAtAnyParameters, StepKeepsInvariantsAtAnyParameters: other parameters, a split command, and
a step from a state that meets the invariants. -/
theorem witness_any_parameters :
    small.Wf ∧ p2.fbCount ≤ small.fbCapacity ∧ (Instr.setpos 20 0).WellFormed = true ∧
    encode (.setpos 20 0) = [0x00000003] ++ [0x00140000, 0x00000000] ∧
    stepWith small State.reset = .next State.reset := by
  refine ⟨by decide, by decide, by decide +kernel, by decide +kernel, rfl⟩

theorem reset_inv_small : State.reset.Inv small where
  count_le := by decide
  overflow_full := by decide
  posX_range := by decide +kernel
  posY_range := by decide +kernel
  scale_pos := by decide
  rate_default := by decide
  status_zero_iff := by decide
  status_reserved := by decide
  cause_le := by decide
  errCwp_zero := by decide
  pend_partial := by decide
  fb_wf := by decide
  frame_written := fun _ hi => absurd hi (Nat.not_lt_zero _)
  samples_range := fun _ he => absurd he List.not_mem_nil

/-- DerivedWidths, WireFormAtAnyParameters: another MAX_COORD, at which CW is 14, and this hardware's. -/
theorem witness_widths :
    ({ Params.hw with maxCoord := 9999 } : Params).Wf ∧ 14 = coordWidth { Params.hw with maxCoord := 9999 } ∧
    12 = coordWidth Params.hw ∧ State.reset.Inv small :=
  ⟨by decide, by decide +kernel, by decide +kernel, reset_inv_small⟩

/-- LineAppendsAtMost1750, ScalingRoundTrip, EmittedFramesWereWritten. -/
theorem witness_invariant_state :
    oneSample.Inv Params.hw ∧ oneSample.initDone = true ∧
    exec (.line 0 0 0 0 0) oneSample = .next (line Params.hw 0 0 0 0 0 oneSample) ∧
    after (fun s => newEvents oneSample s) (exec .emit { oneSample with script := answers .ready }) =
      some [.callStatus 0 .ready, .callWrite 0 20000 ⟨true, true⟩ [wireOf Params.hw ⟨5, 6, 7⟩] 1 .failure] :=
  ⟨oneSample_inv, rfl, rfl, by decide +kernel⟩

/-- ZeroLengthLine: L9. -/
theorem witness_zero_length :
    10 * (beamAt 10 10 255).scale = (beamAt 10 10 255).posX ∧
    inRange Params.hw ⟨(beamAt 10 10 255).posX, (beamAt 10 10 255).posY⟩ = true := by decide +kernel

/-- InitConfigures (a device, and none) and ScaleInRawOperands. -/
theorem witness_init :
    max (8190 : Rat) 4095 ≠ 0 ∧ 0 < openAnswer { State.reset with script := answers .ready } ∧
    openAnswer { State.reset with script := { Script.empty with opens := [0] } } = 0 ∧
    0 < max (0x00000000 : Word).toNat (0x00000001 : Word).toNat ∧
    exec (.init 0 1) State.reset = .next (init Params.hw 0 1 State.reset) := by
  refine ⟨by decide +kernel, by decide, rfl, by decide, rfl⟩

/-- The EMIT statements: a frame of one sample and a full one, a device that is ready, busy, and none. -/
theorem witness_emit :
    0 < oneSample.fbCount ∧ (overrun 2).fbCount ≤ 131072 ∧ 0 < oneSample.devCount ∧
    statusAnswer { oneSample with script := answers .ready } = .ready ∧
    statusAnswer { oneSample with script := answers .busy } = .busy ∧
    ({ oneSample with devCount := 0 } : State).devCount = 0 ∧ ready.fbCount = 0 ∧
    (overrun 2).fbOverflow ≠ 0 ∧ oneSample.fbOverflow = 0 ∧
    131072 < ({ ready with fbCount := 131073 } : State).fbCount := by decide

/-- OverrunWarning, SecondEmitDoesNothing: an EMIT that completes. -/
theorem witness_emit_completes :
    (after (fun s => s.fbCount) (exec .emit oneSample)) = some 0 := by decide +kernel

/-- StaleEntriesAreUnobservable: two buffers that differ only past FB_COUNT. -/
theorem witness_stale :
    ∀ j, j < oneSample.fbCount →
      Memory.get? [(0, ⟨5, 6, 7⟩), (4, ⟨1, 1, 1⟩)] j = oneSample.fb.get? j := by
  intro j hj
  have : j = 0 := Nat.lt_one_iff.1 hj
  subst this
  rfl

end Sys2Proof.Tests
end

section
/-!
PROOFS. The statements of 00_scope.md about the parameters: the machine at this hardware's values (R7) and the derived
widths (R8).
-/

namespace Sys2Proof.Machine

open Sys2Proof

/-! ### The machine at this hardware's values (R7) -/

theorem step_eq_stepWith : step = stepWith Params.hw := by
  funext s
  rw [step, stepWith, exec_eq_execWith]

/-- Settles O54: `exec` and `step` are the parameterised machine at `Params.hw`, arm by arm. -/
theorem hardwareParameters : Obligations.HardwareParameters :=
  ⟨rfl, by decide, fun i s => congrFun (congrFun exec_eq_execWith i) s, congrFun step_eq_stepWith⟩

/-! ### The derived widths (R8) -/

theorem ceilLog2_le_iff {n k : Nat} : ceilLog2 n ≤ k ↔ n ≤ 2 ^ k :=
  ⟨fun h => (le_two_pow_ceilLog2 n).trans (Nat.pow_le_pow_right Nat.two_pos h), ceilLog2_le⟩

/-- The model's search finds the library's ceiling logarithm: both are the least k with n ≤ 2^k. -/
theorem ceilLog2_eq_clog (n : Nat) : ceilLog2 n = Nat.clog 2 n :=
  eq_of_forall_ge_iff fun _ => ceilLog2_le_iff.trans (Nat.clog_le_iff_le_pow Nat.one_lt_two).symm

/-- `ceilLog2` is the ceiling of the real logarithm, as R8 writes it. -/
theorem ceilLog2_eq_ceil_logb (n : Nat) : (ceilLog2 n : Int) = ⌈Real.logb 2 n⌉ := by
  have h : ⌈Real.logb (2 : Nat) n⌉ = Int.clog 2 (n : ℝ) := Real.ceil_logb_natCast (Nat.cast_nonneg n)
  rw [Int.clog_natCast] at h
  rw [ceilLog2_eq_clog, ← h, Nat.cast_ofNat]

theorem coordWidth_eq_ceil_logb (p : Params) : (coordWidth p : Int) = ⌈Real.logb 2 (p.maxCoord + 1)⌉ := by
  rw [coordWidth, ceilLog2_eq_ceil_logb, Nat.cast_succ]

theorem countWidth_eq_ceil_logb (p : Params) : (countWidth p : Int) = ⌈Real.logb 2 (p.fbCapacity + 1)⌉ := by
  rw [countWidth, ceilLog2_eq_ceil_logb, Nat.cast_succ]

@[simp] theorem countWidth_hw : countWidth Params.hw = 18 := by decide +kernel

@[simp] theorem indexWidth_hw : indexWidth Params.hw = 17 := by decide +kernel

theorem fbCapacity_lt (p : Params) : p.fbCapacity < 2 ^ countWidth p := le_two_pow_ceilLog2 _

theorem fbCapacity_le (p : Params) : p.fbCapacity ≤ 2 ^ indexWidth p := le_two_pow_ceilLog2 _

theorem coordWidth_le_of_maxCoord_lt {p : Params} {k : Nat} (h : p.maxCoord < 2 ^ k) : coordWidth p ≤ k :=
  ceilLog2_le h

/-- R37 item 1 keeps FB_COUNT within FB_CAPACITY, and so within its width. -/
theorem State.Inv.fbCount_lt {p : Params} {s : State} (h : s.Inv p) : s.fbCount < 2 ^ countWidth p :=
  h.count_le.trans_lt (fbCapacity_lt p)

/-- Every entry of the canonical buffer stands below FB_CAPACITY, so its index fits the index width. -/
theorem State.Inv.index_lt {p : Params} {s : State} (h : s.Inv p) {e : Nat × Sample} (he : e ∈ s.fb) :
    e.1 < 2 ^ indexWidth p := by
  obtain ⟨-, hbelow⟩ := h.fb_wf
  exact (hbelow e he).trans_le (fbCapacity_le p)

/-- Settles O57, from the least power of two that holds each of the two bounds. -/
theorem derivedWidths : Obligations.DerivedWidths :=
  ⟨⟨coordWidth_hw, countWidth_hw, indexWidth_hw⟩, fun p _ =>
    ⟨coordWidth_eq_ceil_logb p, countWidth_eq_ceil_logb p,
      ⟨maxCoord_lt p, fun _ => coordWidth_le_of_maxCoord_lt⟩,
      fun a _ => ⟨coordField_lt p a.x, coordField_lt p a.y⟩,
      fun _ h => ⟨h.fbCount_lt, fun _ => h.index_lt⟩⟩⟩

end Sys2Proof.Machine
end

section
/-!
PROOFS. The statement of 10_state.md about the invariants (R37): every step keeps them. The invariants are taken in three
parts, by what writes the registers they speak of: the beam and the frame buffer, INIT's configuration, and the error
registers. PEND stands apart, since it holds a whole command while that command executes.
-/

namespace Sys2Proof.Machine

open Sys2Proof

/-! ### The parts of the invariants -/

/-- R51: the sample's coordinates are in 0..MAX_COORD and its power in 0..FULL_POWER. -/
def SampleInRange (p : Params) (smp : Sample) : Prop :=
  smp.x ≤ p.maxCoord ∧ smp.y ≤ p.maxCoord ∧ smp.p.toNat ≤ p.fullPower

/-- The invariants of the beam's position and the frame buffer (R37 items 1 to 3, R50, R51, R59). -/
structure State.DrawInv (p : Params) (s : State) : Prop where
  pos_range : inRange p s.pos = true
  count_le : s.fbCount ≤ p.fbCapacity
  overflow_full : s.fbOverflow ≠ 0 → s.fbCount = p.fbCapacity
  fb_wf : s.fb.wf p.fbCapacity
  frame_written : ∀ i, i < s.fbCount → (s.fb.get? i).isSome = true
  samples_range : ∀ e ∈ s.fb, SampleInRange p e.2

/-- The invariants of what INIT configures (R37 item 4). -/
structure State.ConfigInv (p : Params) (s : State) : Prop where
  scale_pos : s.initDone = true → 0 < s.scale
  rate_default : s.initDone = true → s.sampleRate = BitVec.ofNat 32 p.defaultSampleRate

/-- The invariants of the error registers (R37 item 5, R33, R34). -/
structure State.ErrorInv (s : State) : Prop where
  status_zero_iff : s.status = 0 ↔ s.firstErrCause = 0
  status_reserved : s.status &&& 0xFFFFFFF0 = 0
  cause_le : s.firstErrCause ≤ 4
  errCwp_zero : s.firstErrCause = 0 → s.firstErrCwp = 0

/-- What a command keeps while its words stand in PEND: every invariant but PEND's. -/
structure State.CommandInv (p : Params) (s : State) : Prop where
  draw : s.DrawInv p
  config : s.ConfigInv p
  errors : s.ErrorInv

/-- The model's invariants are the command's and PEND's. -/
theorem State.inv_iff {p : Params} {s : State} : s.Inv p ↔ s.CommandInv p ∧ pendPartial s.pend = true := by
  constructor
  · intro h
    obtain ⟨hx0, hx1⟩ := h.posX_range
    obtain ⟨hy0, hy1⟩ := h.posY_range
    exact ⟨⟨⟨(inRange_iff p _).2 ⟨hx0, hx1, hy0, hy1⟩, h.count_le, h.overflow_full, h.fb_wf, h.frame_written,
        h.samples_range⟩, ⟨h.scale_pos, h.rate_default⟩,
        ⟨h.status_zero_iff, h.status_reserved, h.cause_le, h.errCwp_zero⟩⟩, h.pend_partial⟩
  · rintro ⟨⟨hd, hc, he⟩, hp⟩
    obtain ⟨hx0, hx1, hy0, hy1⟩ := (inRange_iff p _).1 hd.pos_range
    exact ⟨hd.count_le, hd.overflow_full, ⟨hx0, hx1⟩, ⟨hy0, hy1⟩, hc.scale_pos, hc.rate_default, he.status_zero_iff,
      he.status_reserved, he.cause_le, he.errCwp_zero, hp, hd.fb_wf, hd.frame_written, hd.samples_range⟩

/-! ### Each part depends on its own registers only -/

theorem State.DrawInv.of_eq {p : Params} {s t : State} (h : s.DrawInv p) (hpos : t.pos = s.pos) (hfb : t.fb = s.fb)
    (hc : t.fbCount = s.fbCount) (ho : t.fbOverflow = s.fbOverflow) : t.DrawInv p := by
  obtain ⟨h1, h2, h3, h4, h5, h6⟩ := h
  constructor <;> simpa only [hpos, hfb, hc, ho]

theorem State.ConfigInv.of_eq {p : Params} {s t : State} (h : s.ConfigInv p) (hi : t.initDone = s.initDone)
    (hs : t.scale = s.scale) (hr : t.sampleRate = s.sampleRate) : t.ConfigInv p := by
  obtain ⟨h1, h2⟩ := h
  constructor <;> simpa only [hi, hs, hr]

theorem State.ErrorInv.of_eq {s t : State} (h : s.ErrorInv) (hs : t.status = s.status)
    (hc : t.firstErrCause = s.firstErrCause) (hw : t.firstErrCwp = s.firstErrCwp) : t.ErrorInv := by
  obtain ⟨h1, h2, h3, h4⟩ := h
  constructor <;> simpa only [hs, hc, hw]

/-- The command's invariants do not speak of the words on their way nor of the word pointer. -/
theorem State.CommandInv.setFetch {p : Params} {s : State} (h : s.CommandInv p) (pend input : List Word)
    (cwp : Word) : ({ s with pend := pend, input := input, cwp := cwp } : State).CommandInv p :=
  ⟨h.draw.of_eq rfl rfl rfl rfl, h.config.of_eq rfl rfl rfl, h.errors.of_eq rfl rfl rfl⟩

/-! ### The beam and the frame buffer -/

theorem append_drawInv {p : Params} {s : State} {smp : Sample} (h : s.DrawInv p) (hs : SampleInRange p smp) :
    (append p smp s).DrawInv p := by
  have hpos : (append p smp s).pos = s.pos := by simp [State.pos]
  rcases append_cases p smp s with ⟨hlt, hfb, hc, ho⟩ | ⟨hge, hfb, hc, -⟩
  · refine ⟨hpos ▸ h.pos_range, by omega, fun hne => ?_, append_wf smp h.fb_wf, fun i hi => ?_, fun e he => ?_⟩
    · have := h.overflow_full (ho ▸ hne)
      omega
    · rw [hfb]
      by_cases hi' : i = s.fbCount
      · simp [hi']
      · rw [get?_write_other _ _ hi']
        exact h.frame_written i (by omega)
    · rw [hfb] at he
      rcases mem_write he with rfl | he
      · exact hs
      · exact h.samples_range e he
  · have hfull : s.fbCount = p.fbCapacity := h.count_le.antisymm hge
    exact ⟨hpos ▸ h.pos_range, hc ▸ h.count_le, fun _ => hc.trans hfull, hfb ▸ h.fb_wf,
      by rw [hfb, hc]; exact h.frame_written, hfb ▸ h.samples_range⟩

theorem appendAll_drawInv {p : Params} {s : State} {l : List Sample} (h : s.DrawInv p)
    (hl : ∀ smp ∈ l, SampleInRange p smp) : (appendAll p l s).DrawInv p := by
  induction l generalizing s with
  | nil => exact h
  | cons smp l ih =>
    obtain ⟨hsmp, hl⟩ := List.forall_mem_cons.1 hl
    exact ih (append_drawInv h hsmp) hl

theorem dwell_inRange {p : Params} {s : State} {n : Nat} (h : inRange p s.pos = true) :
    ∀ smp ∈ dwell p n s, SampleInRange p smp := by
  intro smp hsmp
  rw [List.eq_of_mem_replicate hsmp]
  exact mkSample_range h _

/-- A move between points in range appends samples in range only (R133, R134). -/
theorem travelSamples_inRange {p : Params} {s : State} {t : Point} (hs : inRange p s.pos = true)
    (ht : inRange p t = true) : ∀ smp ∈ travelSamples p t s, SampleInRange p smp := by
  intro smp hsmp
  rcases List.mem_append.1 hsmp with hmove | hsettle
  · obtain ⟨k, hk, rfl⟩ := List.mem_map.1 hmove
    obtain ⟨-, hk⟩ := List.mem_range'_1.1 hk
    exact mkSample_range (pathPoint_inRange hs ht (by omega)) _
  · rw [List.eq_of_mem_replicate hsettle]
    exact mkSample_range ht _

theorem setPos_drawInv {p : Params} {s : State} {t : Point} (h : s.DrawInv p) (ht : inRange p t = true) :
    (s.setPos t).DrawInv p :=
  ⟨ht, h.count_le, h.overflow_full, h.fb_wf, h.frame_written, h.samples_range⟩

theorem setPosition_drawInv {p : Params} {s : State} {t : Point} (h : s.DrawInv p) (ht : inRange p t = true) :
    (setPosition p t s).DrawInv p := by
  rw [setPosition_eq]
  exact appendAll_drawInv (setPos_drawInv h ht) (travelSamples_inRange h.pos_range ht)

theorem setOn_drawInv {p : Params} {s : State} (i : BitVec 8) (h : s.DrawInv p) : (setOn p i s).DrawInv p := by
  by_cases hi : lit i = s.on
  · rwa [setOn_same hi]
  · rw [setOn_change hi]
    exact appendAll_drawInv (h.of_eq rfl rfl rfl rfl) (dwell_inRange h.pos_range)

theorem renderLine_drawInv {p : Params} {s : State} {p0 p1 : Point} (c : BitVec 8) (h : s.DrawInv p)
    (h0 : inRange p p0 = true) (h1 : inRange p p1 = true) : (renderLine p p0 p1 c s).DrawInv p := by
  unfold renderLine blankJump
  dsimp only
  refine setPosition_drawInv ?_ h1
  have hjump : State.DrawInv p (if (!near p s.pos p0) = true then setPosition p p0 (setOn p 0 s) else s) := by
    split
    · exact setPosition_drawInv (setOn_drawInv 0 h) h0
    · exact h
  split
  · exact setOn_drawInv c hjump
  · exact hjump

/-- Emission empties the frame and keeps its entries (R110). -/
theorem emitFrame_drawInv {p : Params} {s : State} (l : List Sample) (h : s.DrawInv p) :
    (emitFrame p l s).DrawInv p where
  pos_range := by simpa [State.pos] using h.pos_range
  count_le := Nat.zero_le _
  overflow_full := fun hne => absurd rfl hne
  fb_wf := by simpa using h.fb_wf
  frame_written := fun i hi => absurd hi (Nat.not_lt_zero i)
  samples_range := by simpa using h.samples_range

/-! ### INIT's configuration -/

theorem nonneg_of_dimOk {x : Rat} (h : dimOk x = true) : 0 ≤ x := by
  simp only [dimOk, Bool.and_eq_true, decide_eq_true_eq] at h
  obtain ⟨⟨-, h0⟩, -⟩ := h
  exact h0

/-- The factor INIT writes is positive: the larger dimension is not 0, and no dimension word is negative (R181). -/
theorem scaleFactor_pos {p : Params} {w v : Rat} (hp : 0 < p.maxCoord) (hw : 0 ≤ w) (hne : max w v ≠ 0) :
    0 < scaleFactor p w v :=
  div_pos (Nat.cast_pos.2 hp) ((hw.trans (le_max_left w v)).lt_of_ne hne.symm)

/-! ### The error registers -/

theorem ErrCond.mask_ne_zero (e : ErrCond) : e.mask ≠ 0 := by cases e <;> decide

theorem ErrCond.mask_reserved (e : ErrCond) : e.mask &&& 0xFFFFFFF0 = 0 := by cases e <;> decide

theorem ErrCond.code_ne_zero (e : ErrCond) : e.code ≠ 0 := by cases e <;> decide

theorem ErrCond.code_le (e : ErrCond) : e.code ≤ 4 := by cases e <;> decide

/-- After an error the cause is not 0, be it this error's code or an earlier one's (R202). -/
theorem raise_firstErrCause_ne_zero (e : ErrCond) (s : State) : (raise e s).firstErrCause ≠ 0 := by
  rw [raise_firstErrCause]
  split
  · exact e.code_ne_zero
  · assumption

theorem raise_errorInv {s : State} (e : ErrCond) (h : s.ErrorInv) : (raise e s).ErrorInv where
  status_zero_iff := by
    refine iff_of_false (fun hz => ?_) (raise_firstErrCause_ne_zero e s)
    rw [raise_status] at hz
    exact e.mask_ne_zero (BitVec.or_eq_zero_iff.1 hz).2
  status_reserved := by
    rw [raise_status, BitVec.and_or_distrib_right, h.status_reserved, e.mask_reserved]
    rfl
  cause_le := by
    rw [raise_firstErrCause]
    split
    · exact e.code_le
    · exact h.cause_le
  errCwp_zero := fun hz => absurd hz (raise_firstErrCause_ne_zero e s)

/-! ### A whole command and the step -/

theorem raise_commandInv {p : Params} {s : State} (e : ErrCond) (h : s.CommandInv p) : (raise e s).CommandInv p :=
  ⟨h.draw.of_eq rfl rfl rfl rfl, h.config.of_eq rfl rfl rfl, raise_errorInv e h.errors⟩

/-- A drawing command leaves the configuration and the error registers alone. -/
theorem State.CommandInv.of_sameButBeam {p : Params} {s t : State} (h : s.CommandInv p) (ht : SameButBeam s t)
    (hd : t.DrawInv p) : t.CommandInv p :=
  ⟨hd, h.config.of_eq ht.initDone ht.scale ht.sampleRate,
    h.errors.of_eq ht.status ht.firstErrCause ht.firstErrCwp⟩

theorem init_commandInv {p : Params} {s : State} {w v : Rat} (hp : 0 < p.maxCoord) (hw : 0 ≤ w)
    (h : s.CommandInv p) : (init p w v s).CommandInv p := by
  rcases init_cases p w v s with ⟨-, hinit⟩ | ⟨hne, hinit⟩ <;> rw [hinit]
  · exact raise_commandInv _ h
  · exact ⟨h.draw.of_eq (by simp [State.pos]) (by simp) (by simp) (by simp),
      ⟨fun _ => by simpa using scaleFactor_pos hp hw hne, fun _ => by simp⟩,
      h.errors.of_eq (by simp) (by simp) (by simp)⟩

theorem emitFrame_commandInv {p : Params} {s : State} (l : List Sample) (h : s.CommandInv p) :
    (emitFrame p l s).CommandInv p :=
  ⟨emitFrame_drawInv l h.draw, h.config.of_eq (by simp) (by simp) (by simp),
    h.errors.of_eq (by simp) (by simp) (by simp)⟩

/-- Every command the encoding can carry keeps every invariant but PEND's. -/
theorem execWith_commandInv {p : Params} {i : Instr} {s t : State} (hp : 0 < p.maxCoord)
    (hi : i.WellFormed = true) (h : s.CommandInv p) (ht : execWith p i s = .next t) : t.CommandInv p := by
  cases i with
  | init w v =>
    injection ht with ht
    obtain ⟨hw, -⟩ := Bool.and_eq_true_iff.1 hi
    exact ht ▸ init_commandInv hp (nonneg_of_dimOk hw) h
  | seton c =>
    injection ht with ht
    subst ht
    rcases seton_cases p c s with ⟨-, hs⟩ | ⟨-, hs⟩ <;> rw [hs]
    · exact raise_commandInv _ h
    · exact h.of_sameButBeam (setOn_sameButBeam p c s) (setOn_drawInv c h.draw)
  | setpos x y =>
    injection ht with ht
    subst ht
    rcases setpos_cases p x y s with ⟨-, hs⟩ | ⟨-, -, hs⟩ | ⟨-, hr, hs⟩ <;> rw [hs]
    · exact raise_commandInv _ h
    · exact raise_commandInv _ h
    · exact h.of_sameButBeam (setPosition_sameButBeam p _ s) (setPosition_drawInv h.draw hr)
  | line x0 y0 x1 y1 c =>
    injection ht with ht
    subst ht
    rcases line_cases p x0 y0 x1 y1 c s with ⟨-, hs⟩ | ⟨-, hs⟩ | ⟨-, h0, h1, hs⟩ <;> rw [hs]
    · exact raise_commandInv _ h
    · exact raise_commandInv _ h
    · exact h.of_sameButBeam (renderLine_sameButBeam p _ _ c s) (renderLine_drawInv c h.draw h0 h1)
  | emit =>
    rcases emit_cases ht with ⟨-, rfl⟩ | ⟨-, -, rfl⟩ | ⟨-, -, -, rfl⟩
    · exact raise_commandInv _ h
    · exact h
    · exact emitFrame_commandInv _ h

/-- Every command the decoder reads is one the encoding can carry: every word holds a legal operand (R80). -/
theorem wellFormed_of_decodeCommand {ws : List Word} {i : Instr} (h : decodeCommand ws = .ok i) :
    i.WellFormed = true := by
  rcases decodeCommand_ok h with ⟨w, v, -, rfl⟩ | ⟨imm, -, rfl⟩ | ⟨x, y, -, rfl⟩ |
    ⟨imm, x0, y0, x1, y1, -, rfl⟩ | ⟨-, rfl⟩ <;> simp [Instr.WellFormed, dimOk_uq16, coordOk_q16]

/-- Executing a whole command, legal or not, keeps every invariant but PEND's. -/
theorem executeBy_commandInv {p : Params} {ws : List Word} {s t : State} (hp : 0 < p.maxCoord)
    (h : s.CommandInv p) (ht : executeBy (execWith p) ws s = .next t) : t.CommandInv p := by
  unfold executeBy at ht
  split at ht
  · exact execWith_commandInv hp (wellFormed_of_decodeCommand ‹_›) h ht
  · injection ht with ht
    exact ht ▸ raise_commandInv _ h

/-- Every step keeps the invariants, at every parameter R7 allows: an idle step changes nothing, words that end inside
a command leave PEND partial, and a whole command keeps the rest and empties PEND. -/
theorem stepWith_keeps_inv {p : Params} {s t : State} (hp : p.Wf) (h : s.Inv p) (ht : stepWith p s = .next t) :
    t.Inv p := by
  obtain ⟨-, hmax, -⟩ := hp
  obtain ⟨hcmd, hpend⟩ := State.inv_iff.1 h
  rcases fetchStepBy_cases ht with ⟨rfl, -, -⟩ | ⟨-, rfl, hpart⟩ | ⟨words, rest, u, -, -, hu, rfl⟩
  · exact h
  · exact State.inv_iff.2 ⟨hcmd.setFetch _ _ s.cwp, hpart hpend⟩
  · have hucmd := executeBy_commandInv hmax (hcmd.setFetch words rest s.cwp) hu
    exact State.inv_iff.2 ⟨hucmd.setFetch [] u.input _, rfl⟩

/-- Settles O14: this hardware's step is the parameterised one, which keeps each part of the invariants. -/
theorem stepKeepsInvariants : Obligations.StepKeepsInvariants := by
  intro s t h ht
  rw [step_eq_stepWith] at ht
  exact stepWith_keeps_inv (by decide) h ht

end Sys2Proof.Machine
end

section
/-!
PROOFS. The statements of 20_memory.md about samples: forming one (R52), its wire word (R53) and that word's bytes (R54).
-/

namespace Sys2Proof.Machine

open Sys2Proof

/-! ### Forming a sample (R52) -/

/-- A power whose largest value fits its `u8` is not taken modulo. -/
theorem toNat_power {p : Params} (h : p.fullPower < 256) (i : BitVec 8) :
    (power p i).toNat = i.toNat * p.fullPower / 255 := by
  have hi : i.toNat ≤ 255 := Nat.le_of_lt_succ i.isLt
  have hle : i.toNat * p.fullPower / 255 ≤ p.fullPower := Nat.div_le_of_le_mul (Nat.mul_le_mul_right _ hi)
  rw [power, BitVec.toNat_ofNat, Nat.mod_eq_of_lt (hle.trans_lt h)]

/-- The model's division of natural numbers is the floor of the rational quotient, as R52 writes it. -/
theorem toNat_power_eq_floor {p : Params} (h : p.fullPower < 256) (i : BitVec 8) :
    ((power p i).toNat : Int) = ((i.toNat : Rat) * p.fullPower / 255).floor := by
  have hfloor : (((i.toNat * p.fullPower : Nat) : Rat) / (255 : Nat)).floor = _ / _ :=
    Rat.floor_natCast_div_natCast _ _
  rw [toNat_power h, Int.natCast_ediv, ← hfloor, Nat.cast_mul, Nat.cast_ofNat]

/-- Settles O11, field by field: the coordinates are floored as they are in range, and the power fits its type. -/
theorem formingASampleFloors : Obligations.FormingASampleFloors := fun _ _ _ i _ hx0 hx hy0 hy =>
  ⟨coordField_of_range hx0 hx, coordField_of_range hy0 hy, coordField_le hx0 hx, coordField_le hy0 hy,
    fun hpower => toNat_power_eq_floor hpower i, power_hw i⟩

/-! ### The wire word (R53)

The fields at coordinate fields of `n` bits, `n` standing for CW so that a numeral can take its place. -/

section Wire
variable {p : Params} {n : Nat} (s : Sample)

theorem wireOf_width (hn : n = coordWidth p) : (wireOf p s).width = 24 + 2 * n := by
  simp only [wireOf]
  omega

theorem wireOf_x (hn : n = coordWidth p) : (wireOf p s).word.extractLsb' 0 n = BitVec.ofNat n s.x := by
  subst hn
  exact BitVec.extractLsb'_append_eq_right

/-- What stands above the x field is read from the word without it. -/
theorem wireOf_above_x (hn : n = coordWidth p) {start : Nat} (h : n ≤ start) (len : Nat) :
    (wireOf p s).word.extractLsb' start len =
      (0#8 ++ 0#8 ++ s.p ++ BitVec.ofNat n s.y).extractLsb' (start - n) len := by
  subst hn
  exact BitVec.extractLsb'_append_eq_of_le h

theorem wireOf_y (hn : n = coordWidth p) : (wireOf p s).word.extractLsb' n n = BitVec.ofNat n s.y := by
  rw [wireOf_above_x s hn le_rfl, Nat.sub_self, BitVec.extractLsb'_append_eq_right]

/-- The channels follow the two coordinates: CH0 = power, then CH1 = CH2 = 0. -/
theorem wireOf_channels (hn : n = coordWidth p) (k len : Nat) :
    (wireOf p s).word.extractLsb' (2 * n + k) len = (0#8 ++ 0#8 ++ s.p).extractLsb' k len := by
  rw [wireOf_above_x s hn (by omega), BitVec.extractLsb'_append_eq_of_le (by omega)]
  congr 1
  omega

theorem wireOf_ch0 (hn : n = coordWidth p) : (wireOf p s).word.extractLsb' (2 * n) 8 = s.p :=
  (wireOf_channels s hn 0 8).trans BitVec.extractLsb'_append_eq_right

theorem wireOf_ch1 (hn : n = coordWidth p) : (wireOf p s).word.extractLsb' (2 * n + 8) 8 = 0 := by
  rw [wireOf_channels s hn, BitVec.extractLsb'_append_eq_of_le (by decide)]
  rfl

theorem wireOf_ch2 (hn : n = coordWidth p) : (wireOf p s).word.extractLsb' (2 * n + 16) 8 = 0 := by
  rw [wireOf_channels s hn, BitVec.extractLsb'_append_eq_of_le (by decide)]
  rfl

end Wire

/-! ### The wire word's bytes (R54) -/

@[simp] theorem length_wireBytes (w : WireSample) : (wireBytes w).length = (w.width + 7) / 8 := by simp [wireBytes]

theorem getElem?_wireBytes {w : WireSample} {k : Nat} (hk : k < (w.width + 7) / 8) :
    (wireBytes w)[k]? = some (w.word.extractLsb' (8 * k) 8) := by
  simp [wireBytes, List.getElem?_range hk]

/-- Settles O10: the fields at this hardware's CW = 12, and the 6 bytes of 48 bits. -/
theorem sampleWireForm : Obligations.SampleWireForm := by
  have hn : 12 = coordWidth Params.hw := coordWidth_hw.symm
  refine ⟨fun s => ⟨wireOf_width s hn, wireOf_x s hn, wireOf_y s hn, wireOf_ch0 (n := 12) s hn,
    wireOf_ch1 (n := 12) s hn, wireOf_ch2 (n := 12) s hn⟩, fun w hw => ?_⟩
  have hbytes : (w.width + 7) / 8 = 6 := by rw [hw]
  exact ⟨(length_wireBytes w).trans hbytes, fun k hk => getElem?_wireBytes (by rwa [hbytes])⟩

end Sys2Proof.Machine
end

section
/-!
PROOFS. The statements of 30_encoding.md about assembly texts (R84, R86), lengths (R74), illegal headers (R80) and the
word pointer (R76).
-/

namespace Sys2Proof

/-! ### Opcodes and lengths (R74, R80) -/

theorem opcDefined_iff {o : BitVec 8} : opcDefined o = true ↔ 0x01 ≤ o ∧ o ≤ 0x05 := by
  simp only [opcDefined, Bool.or_eq_true, beq_iff_eq]
  bv_omega

theorem opcDefined_eq_false_iff {o : BitVec 8} : opcDefined o = false ↔ o = 0x00 ∨ 0x06 ≤ o := by
  rw [← Bool.not_eq_true, opcDefined_iff]
  bv_omega

theorem imm8MustBeZero_iff {o : BitVec 8} : imm8MustBeZero o = true ↔ o = 0x01 ∨ o = 0x03 ∨ o = 0x05 := by
  simp [imm8MustBeZero, or_assoc]

theorem cmdLen_reserved {o : BitVec 8} (h : opcDefined o = false) : cmdLen o = 1 := by
  simp only [opcDefined, Bool.or_eq_false_iff, beq_eq_false_iff_ne] at h
  obtain ⟨⟨⟨⟨h1, h2⟩, h3⟩, h4⟩, h5⟩ := h
  rw [cmdLen, if_neg h1, if_neg h2, if_neg h3, if_neg h4, if_neg h5]

/-- Settles O3: the five rows by evaluation, and every reserved opcode by the length's default. -/
theorem commandLengthFromOpcodeAlone : Obligations.CommandLengthFromOpcodeAlone :=
  ⟨rfl, rfl, rfl, rfl, rfl, fun _ ho => cmdLen_reserved (opcDefined_eq_false_iff.2 ho), fun _ _ => congrArg cmdLen⟩

/-! ### Legal headers (R71, R80) -/

/-- The header passes R80's checks. -/
def LegalHeader (h : Word) : Prop :=
  opcDefined (opc h) = true ∧ rsv h = 0 ∧ (imm8MustBeZero (opc h) = true → imm8 h = 0)

theorem legalHeader_iff {h : Word} : LegalHeader h ↔
    (0x01 ≤ opc h ∧ opc h ≤ 0x05) ∧ rsv h = 0 ∧ (opc h = 0x01 ∨ opc h = 0x03 ∨ opc h = 0x05 → imm8 h = 0) := by
  rw [LegalHeader, opcDefined_iff, imm8MustBeZero_iff]

theorem not_legalHeader_iff {h : Word} : ¬ LegalHeader h ↔
    (opc h = 0x00 ∨ 0x06 ≤ opc h) ∨ rsv h ≠ 0 ∨ ((opc h = 0x01 ∨ opc h = 0x03 ∨ opc h = 0x05) ∧ imm8 h ≠ 0) := by
  rw [LegalHeader, not_and_or, not_and_or, Bool.not_eq_true, opcDefined_eq_false_iff, imm8MustBeZero_iff,
    Classical.not_imp]

/-- A legal header's command is read from its operands alone. -/
theorem decodeCommand_legal {h : Word} (hl : LegalHeader h) (ops : List Word) :
    decodeCommand (h :: ops) = decodeOperands h ops := by
  obtain ⟨ho, hr, hi⟩ := hl
  rw [decodeCommand, if_neg (by simp [ho]), if_neg (by simp [hr]), if_neg fun ⟨hz, hne⟩ => hne (hi hz)]

/-- An illegal header is refused whatever its operand words are. -/
theorem decodeCommand_illegal {h : Word} (hl : ¬ LegalHeader h) (ops : List Word) :
    ∃ e, decodeCommand (h :: ops) = .error e := by
  rw [decodeCommand]
  split_ifs with ho hr hi
  · exact ⟨_, rfl⟩
  · exact ⟨_, rfl⟩
  · exact ⟨_, rfl⟩
  · exact absurd ⟨Bool.eq_true_of_not_eq_false ho, not_not.1 hr, fun hz => not_not.1 fun hne => hi ⟨hz, hne⟩⟩ hl

/-- A defined opcode with the operand words it asks for gives a command. -/
theorem decodeOperands_whole {h : Word} {ops : List Word} (ho : opcDefined (opc h) = true)
    (hlen : (h :: ops).length = cmdLen (opc h)) : ∃ i, decodeOperands h ops = .ok i := by
  rw [List.length_cons] at hlen
  rcases opc_cases ho with ho | ho | ho | ho | ho <;> rw [ho] at hlen <;> unfold decodeOperands <;> rw [ho]
  · obtain ⟨w, v, rfl⟩ := List.length_eq_two.1 (Nat.succ.inj hlen)
    exact ⟨_, rfl⟩
  · obtain rfl := List.length_eq_zero_iff.1 (Nat.succ.inj hlen)
    exact ⟨_, rfl⟩
  · obtain ⟨x, y, rfl⟩ := List.length_eq_two.1 (Nat.succ.inj hlen)
    exact ⟨_, rfl⟩
  · obtain ⟨x0, y0, x1, y1, rfl⟩ := List.length_eq_four.1 (Nat.succ.inj hlen)
    exact ⟨_, rfl⟩
  · obtain rfl := List.length_eq_zero_iff.1 (Nat.succ.inj hlen)
    exact ⟨_, rfl⟩

end Sys2Proof

namespace Sys2Proof.Machine

open Sys2Proof

/-! ### Executing a whole command (R80) -/

section Execute
variable {run : Instr → State → Result State} {ws : List Word} {p : Params} {s t : State}

theorem executeBy_ok {i : Instr} (h : decodeCommand ws = .ok i) : executeBy run ws s = run i s := by
  rw [executeBy, h]

theorem executeBy_error {e : DecodeError} (h : decodeCommand ws = .error e) :
    executeBy run ws s = .next (raise .illegal s) := by
  rw [executeBy, h]

theorem executeBy_illegal {h : Word} (hl : ¬ LegalHeader h) (ops : List Word) :
    executeBy run (h :: ops) s = .next (raise .illegal s) := by
  obtain ⟨e, he⟩ := decodeCommand_illegal hl ops
  exact executeBy_error he

/-! ### Every command completes while the frame is within the buffer -/

theorem emit_completes (h : s.fbCount ≤ p.fbCapacity) : ∃ t, emit p s = .next t := by
  unfold emit
  rw [memRead_eq_some (by omega)]
  split_ifs
  · exact ⟨_, rfl⟩
  · exact ⟨_, rfl⟩
  · exact ⟨_, rfl⟩

/-- EMIT is the only command that can stop, and only on a frame past the buffer's end. -/
theorem execWith_completes (i : Instr) (h : s.fbCount ≤ p.fbCapacity) : ∃ t, execWith p i s = .next t := by
  cases i with
  | init w v => exact ⟨_, rfl⟩
  | seton c => exact ⟨_, rfl⟩
  | setpos x y => exact ⟨_, rfl⟩
  | line x0 y0 x1 y1 c => exact ⟨_, rfl⟩
  | emit => exact emit_completes h

theorem executeBy_completes (ws : List Word) (h : s.fbCount ≤ p.fbCapacity) :
    ∃ t, executeBy (execWith p) ws s = .next t := by
  cases hd : decodeCommand ws with
  | ok i => rw [executeBy_ok hd]; exact execWith_completes i h
  | error e => exact ⟨_, executeBy_error hd⟩

theorem execute_completes (ws : List Word) (h : s.fbCount ≤ Params.hw.fbCapacity) :
    ∃ t, execute ws s = .next t := by
  rw [execute, exec_eq_execWith]
  exact executeBy_completes ws h

/-! ### The word pointer in an error's record (R76, R202) -/

theorem newEvents_of_trace {l : List Event} (h : t.trace = s.trace ++ l) : newEvents s t = l := by
  rw [newEvents, h, List.drop_left]

/-- Executing a command leaves the word pointer and the waiting words to the step. -/
theorem execute_fetch (h : execute ws s = .next t) : t.cwp = s.cwp ∧ t.input = s.input := by
  rcases execute_cases h with ⟨e, rfl⟩ | ⟨-, -, -, hcwp, -, hin, -⟩
  · exact ⟨rfl, rfl⟩
  · exact ⟨hcwp, hin⟩

/-- Every ERROR event of a command carries the word pointer of its header. -/
theorem execute_error_events (h : execute ws s = .next t) {code : BitVec 8} {c : Word}
    (hev : Event.error code c ∈ newEvents s t) : c = s.cwp := by
  rcases execute_cases h with ⟨e, rfl⟩ | ⟨-, -, -, -, -, -, -, l, htrace, hl⟩
  · rw [newEvents_of_trace (raise_trace e s), List.mem_singleton] at hev
    injection hev
  · rw [newEvents_of_trace htrace] at hev
    exact absurd (hl _ hev) (by simp [Event.isError])

/-- The first error recorded carries the word pointer of its command's header. -/
theorem execute_firstErrCwp (h : execute ws s = .next t) (h0 : s.firstErrCause = 0) (h1 : t.firstErrCause ≠ 0) :
    t.firstErrCwp = s.cwp := by
  rcases execute_cases h with ⟨e, rfl⟩ | ⟨-, hcause, -⟩
  · rw [raise_firstErrCwp, if_pos h0]
  · exact absurd (hcause.trans h0) h1

end Execute

/-! ### The step on a whole command (R76, R80) -/

/-- Settles O16: an illegal header is refused before its operands are read, and a legal one with all of them decodes. -/
theorem illegalHeadersRaiseIllegal : Obligations.IllegalHeadersRaiseIllegal := by
  constructor
  · intro h ops post rest s hlen hne heq hin hbad
    rw [step_command hne hin heq hlen, execute, executeBy_illegal (not_legalHeader_iff.2 hbad), retireOutcome]
  · intro h ops hlen hlo hhi hr himm
    have hl : LegalHeader h := legalHeader_iff.2 ⟨⟨hlo, hhi⟩, hr, himm⟩
    obtain ⟨i, hi⟩ := decodeOperands_whole (opcDefined_iff.2 ⟨hlo, hhi⟩) hlen
    rw [← decodeCommand_legal hl] at hi
    exact ⟨i, hi, fun s => executeBy_ok hi⟩

/-- Settles O18: the command completes with CWP still at its header word, and the step then retires it. -/
theorem cwpAdvancesByTheLength : Obligations.CwpAdvancesByTheLength := by
  intro h ops post rest s hlen hne heq hin hcount
  obtain ⟨u, hu⟩ := execute_completes (s := { s with pend := h :: ops, input := rest }) (h :: ops) hcount
  obtain ⟨hcwp, hinput⟩ := execute_fetch hu
  refine ⟨u.retire (cmdLen (opc h)), ?_, ?_, rfl, hinput, fun code c hev => ?_, fun h0 h1 => ?_⟩
  · rw [step_command hne hin heq hlen, hu, retireOutcome]
  · rw [retire_cwp, hcwp]
  · exact execute_error_events hu hev
  · exact (execute_firstErrCwp hu h0 h1 :)

/-! ### Assembly texts (R84, R86) -/

theorem asmCommand_wellFormed {i : Instr} (h : i.WellFormed = true) : asmCommand i = .ok (encode i) := if_pos h

/-- JUMP is SETON 0 and SETPOS, where SETPOS has an encoding. -/
theorem jump_words {x y : Rat} (hx : coordOk x = true) (hy : coordOk y = true) :
    (AsmLine.jump x y).words = .ok (encode (.seton 0) ++ encode (.setpos x y)) := by
  rw [AsmLine.words, asmCommand_wellFormed (i := .seton 0) rfl,
    asmCommand_wellFormed (i := .setpos x y) (Bool.and_eq_true_iff.2 ⟨hx, hy⟩)]

/-- Settles O8: the words are the encodings of the real commands, and an operand word reads back as its operand. -/
theorem pseudoInstructionsExpand : Obligations.PseudoInstructionsExpand :=
  ⟨asmCommand_wellFormed (i := .seton 0) rfl, fun _ _ hx hy => ⟨jump_words hx hy, q16_toQ16 hx, q16_toQ16 hy⟩⟩

/-- Settles O1: the assembler, run on each of the ten lines of R86's table. -/
theorem workedEncodingsAssemble : Obligations.WorkedEncodingsAssemble := by
  refine ⟨?_, ?_, ?_, ?_, ?_, ?_, ?_, ?_, ?_, ?_⟩ <;> decide +kernel

end Sys2Proof.Machine
end

section
/-!
PROOFS. The statements of 41_frame_buffer.md: append (R100), the retention law (R102) and the command EMIT (R106 to
R112).
-/

namespace Sys2Proof.Machine

open Sys2Proof

/-! ### append and the retention law (R100, R102) -/

/-- Settles O26: append has a case for room, one for a full buffer, and one for a saturated loss count. -/
theorem appendKeepsOrCounts : Obligations.AppendKeepsOrCounts := by
  intro p smp s
  refine ⟨append_sameButFrame p smp s, fun hroom => ?_, fun hfull => ?_⟩
  · rw [append_room hroom]
    exact ⟨rfl, rfl, get?_write_same _ _ _, fun j hj => get?_write_other _ _ hj⟩
  · rcases append_cases p smp s with ⟨hroom, -⟩ | ⟨-, hfb, hcount, hover⟩
    · omega
    · refine ⟨hcount, hfb, fun hlt => ?_, fun heq => ?_⟩
      · have : s.fbOverflow.toNat < 0xFFFFFFFF := hlt
        omega
      · rw [append_saturated hfull.not_gt (by simp [heq]), heq]

/-- Settles O27: what appending any list does, from an empty frame. -/
theorem retentionLaw : Obligations.RetentionLaw := by
  intro p l s hcount hover
  obtain ⟨hc, hk, -, ho⟩ := appendAll_appended p l s
  simp only [hcount, Nat.sub_zero, Nat.zero_add] at hc hk
  refine ⟨hc, fun k _ hle => hk (k - 1) (by omega), ?_⟩
  simp [ho, hcount, hover]

/-! ### EMIT completes (R106, R111) -/

/-- EMIT's snapshot of the frame: entries 0 to FB_COUNT - 1 (R62, R106). -/
def State.frame (s : State) : List Sample := (List.range' 0 s.fbCount).map s.fb.read

theorem emit_empty {p : Params} {s : State} (hi : s.initDone = true) (h0 : s.fbCount = 0) : emit p s = .next s := by
  rw [emit, if_neg (by simp [hi]), if_pos h0]

theorem emit_frame {p : Params} {s : State} (hi : s.initDone = true) (h0 : 0 < s.fbCount)
    (hc : s.fbCount ≤ p.fbCapacity) : emit p s = .next (emitFrame p s.frame s) := by
  rw [emit, if_neg (by simp [hi]), if_neg h0.ne', memRead_eq_some (by omega), State.frame]

/-- Settles O43: EMIT answers the same state, and a loss count above 0 would need a full buffer (R37 item 2). -/
theorem emitOfAnEmptyFrame : Obligations.EmitOfAnEmptyFrame := by
  intro s hi h0
  refine ⟨emit_empty hi h0, fun hinv => ?_⟩
  by_contra hover
  have hfull : s.fbCount = 131072 := hinv.overflow_full hover
  omega

/-- Settles O44: the emission of the frame keeps every register but the two counters. -/
theorem emitResetsCountersAndLeavesTheBeam : Obligations.EmitResetsCountersAndLeavesTheBeam := by
  intro s hi h0 hc
  exact ⟨_, emit_frame hi h0 hc, emitFrame_fbCount _ _ _, emitFrame_fbOverflow _ _ _,
    fun _ => congrArg (Memory.get? · _) (emitFrame_fb _ _ _), emitFrame_posX _ _ _, emitFrame_posY _ _ _,
    emitFrame_intensity _ _ _, emitFrame_sampleRate _ _ _, emitFrame_scale _ _ _⟩

/-! ### The events of an EMIT, in order: poll, hand-over, warning (R107 to R109) -/

/-- The poll of the sink leaves its event where there is a device (R107). -/
def pollEvents (p : Params) (s : State) : List Event :=
  if devicePresent p s then [.callStatus p.deviceIndex (statusAnswer s)] else []

/-- The hand-over of the frame `l` leaves its event where the sink is ready (R108). -/
def writeEvents (p : Params) (l : List Sample) (s : State) : List Event :=
  if sinkReady p s then
    [.callWrite p.deviceIndex s.sampleRate ⟨true, true⟩ (l.map (wireOf p)) s.fbCount (writeAnswer (pollSink p s))]
  else []

/-- The warning stands where samples were lost (R109). -/
def warnEvents (s : State) : List Event := if s.fbOverflow ≠ 0 then [.warnOverrun s.fbOverflow] else []

theorem pollSink_trace (p : Params) (s : State) : (pollSink p s).trace = s.trace ++ pollEvents p s := by
  unfold pollSink pollEvents
  split
  · rfl
  · rw [List.append_nil]

@[simp] theorem callWrite_trace (p : Params) (l : List Sample) (s : State) :
    (callWrite p l s).trace = s.trace ++
      [.callWrite p.deviceIndex s.sampleRate ⟨true, true⟩ (l.map (wireOf p)) s.fbCount (writeAnswer s)] := rfl

/-- The whole of what the emission of a frame adds to the trace. -/
theorem emitFrame_trace_eq (p : Params) (l : List Sample) (s : State) :
    (emitFrame p l s).trace = s.trace ++ (pollEvents p s ++ writeEvents p l s ++ warnEvents s) := by
  unfold emitFrame writeEvents warnEvents
  by_cases hready : sinkReady p s <;> by_cases hlost : s.fbOverflow = 0#32 <;> simp [hready, hlost, pollSink_trace]

theorem newEvents_emitFrame (p : Params) (l : List Sample) (s : State) :
    newEvents s (emitFrame p l s) = pollEvents p s ++ writeEvents p l s ++ warnEvents s :=
  newEvents_of_trace (emitFrame_trace_eq p l s)

theorem warnOverrun_notMem_calls (p : Params) (l : List Sample) (s : State) (n : Word) :
    Event.warnOverrun n ∉ pollEvents p s ++ writeEvents p l s := by
  unfold pollEvents writeEvents
  split_ifs <;> simp

/-- Settles O45: the warning follows the calls, and no call is one. -/
theorem overrunWarning : Obligations.OverrunWarning := by
  intro s t hi h0 ht
  rcases emit_cases ht with ⟨hn, -⟩ | ⟨-, hz, -⟩ | ⟨-, -, -, rfl⟩
  · simp [hi] at hn
  · omega
  · rw [newEvents_emitFrame]
    refine ⟨fun hlost => ?_, fun hnone n => ?_⟩
    · exact ⟨_, by rw [warnEvents, if_pos hlost], warnOverrun_notMem_calls _ _ _⟩
    · rw [warnEvents, if_neg (not_not.2 hnone), List.append_nil]
      exact warnOverrun_notMem_calls _ _ _ n

/-! ### The sink's two answers (R107) -/

theorem devicePresent_iff {p : Params} {s : State} : devicePresent p s = true ↔ p.deviceIndex < s.devCount :=
  decide_eq_true_iff

theorem callStatus_mem_emitFrame {p : Params} {s : State} (l : List Sample) (hd : p.deviceIndex < s.devCount) :
    Event.callStatus p.deviceIndex (statusAnswer s) ∈ newEvents s (emitFrame p l s) := by
  rw [newEvents_emitFrame, pollEvents, if_pos (devicePresent_iff.2 hd)]
  simp

/-- The frame is handed over exactly when the sink is ready. -/
theorem callWrite_mem_emitFrame_iff {p : Params} {s : State} (l : List Sample) :
    (∃ rate fl w n res, Event.callWrite p.deviceIndex rate fl w n res ∈ newEvents s (emitFrame p l s)) ↔
      sinkReady p s = true := by
  rw [newEvents_emitFrame, pollEvents, writeEvents, warnEvents]
  by_cases hr : sinkReady p s = true
  · simp [hr]
  · rw [if_neg hr]
    split_ifs <;> simp [hr]

theorem sinkReady_iff {p : Params} {s : State} (hd : p.deviceIndex < s.devCount) :
    sinkReady p s = true ↔ statusAnswer s = .ready := by
  rw [sinkReady, devicePresent_iff.2 hd, Bool.true_and, beq_iff_eq]

/-- What the sink's answer decides, where there is a device: the poll records it, and ready alone hands over. -/
theorem emitFrame_of_statusAnswer {p : Params} {s : State} {r : DevStatus} (l : List Sample)
    (hd : p.deviceIndex < s.devCount) (hr : statusAnswer s = r) :
    Event.callStatus p.deviceIndex r ∈ newEvents s (emitFrame p l s) ∧
      ((∃ rate fl w n res, Event.callWrite p.deviceIndex rate fl w n res ∈ newEvents s (emitFrame p l s)) ↔
        r = .ready) := by
  subst hr
  exact ⟨callStatus_mem_emitFrame l hd, (callWrite_mem_emitFrame_iff l).trans (sinkReady_iff hd)⟩

/-- With no device the emission polls nothing and hands nothing over. -/
theorem newEvents_emitFrame_noDevice {p : Params} {s : State} (l : List Sample) (hd : s.devCount ≤ p.deviceIndex) :
    newEvents s (emitFrame p l s) = warnEvents s := by
  have hp : devicePresent p s = false := decide_eq_false hd.not_gt
  rw [newEvents_emitFrame, pollEvents, writeEvents, sinkReady, hp]
  rfl

/-- The environment's choice of the next poll's answer. -/
def Script.polled (r : DevStatus) : Script := { Script.empty with statuses := [r] }

theorem statusAnswer_polled (r : DevStatus) (s : State) : statusAnswer { s with script := .polled r } = r := rfl

/-- Settles O46: a script whose next status answer is `r` is the run in which the poll answers `r`. -/
theorem sinkReadinessIsFree : Obligations.SinkReadinessIsFree := by
  intro s hi h0 hc
  refine ⟨fun hd r => ?_, fun hd => ⟨_, emit_frame hi h0 hc, fun ev hev => ?_⟩⟩
  · exact ⟨.polled r, _, emit_frame hi h0 hc,
      emitFrame_of_statusAnswer (s := { s with script := .polled r }) _ hd (statusAnswer_polled r s)⟩
  · rw [newEvents_emitFrame_noDevice _ hd.le, warnEvents] at hev
    split at hev
    · exact List.mem_singleton.1 hev
    · cases hev

end Sys2Proof.Machine
end

section
/-!
PROOFS. The statements of 42_beam.md about the step count (R131) and the step laws of a move (R137).
-/

namespace Sys2Proof.Machine

open Sys2Proof

/-! ### The step count (R131) -/

/-- The step count passes its own test: the search ends within its fuel. -/
theorem steps_spec (dx dy : Rat) {m : Nat} (hm : 0 < m) : dx ^ 2 + dy ^ 2 ≤ ((steps dx dy m : Rat) * m) ^ 2 := by
  have hd : 0 ≤ dx ^ 2 + dy ^ 2 := by positivity
  have hfuel := (stepTest_iff _ m _).2 (stepTest_fuel hd hm)
  have hstop := leastFrom_spec (test := fun k => decide (dx ^ 2 + dy ^ 2 ≤ (((k * m) ^ 2 : Nat) : Rat)))
    (Nat.zero_le _) (Nat.zero_add _).ge hfuel
  exact (stepTest_iff _ m _).1 hstop

/-- The step count is below every other k that passes the test. -/
theorem steps_le {dx dy : Rat} {m k : Nat} (h : dx ^ 2 + dy ^ 2 ≤ ((k : Rat) * m) ^ 2) : steps dx dy m ≤ k := by
  by_contra hk
  have hfail := leastFrom_min (Nat.zero_le k) (Nat.lt_of_not_le hk)
  exact Bool.false_ne_true (hfail.symm.trans ((stepTest_iff _ m k).2 h))

/-- What the source says of `ceil(distance / m)`: k steps are enough exactly when (k·m)² is at least distance². -/
theorem steps_le_iff {dx dy : Rat} {m k : Nat} (hm : 0 < m) :
    steps dx dy m ≤ k ↔ dx ^ 2 + dy ^ 2 ≤ ((k : Rat) * m) ^ 2 := by
  refine ⟨fun h => (steps_spec dx dy hm).trans ?_, steps_le⟩
  gcongr

theorem sqrt_div_le_iff {d k m : ℝ} (hm : 0 < m) (hk : 0 ≤ k) : √d / m ≤ k ↔ d ≤ (k * m) ^ 2 := by
  rw [div_le_iff₀ hm, Real.sqrt_le_left (mul_nonneg hk hm.le)]

/-- The step count is the source's ceiling of distance over step bound: both are the least k that is enough. -/
theorem steps_eq_ceil (dx dy : Rat) {m : Nat} (hm : 0 < m) :
    (steps dx dy m : Int) = ⌈√((dx : ℝ) ^ 2 + (dy : ℝ) ^ 2) / m⌉ := by
  have hnat : steps dx dy m = ⌈√((dx : ℝ) ^ 2 + (dy : ℝ) ^ 2) / m⌉₊ := by
    refine eq_of_forall_ge_iff fun k => ?_
    rw [steps_le_iff hm, Nat.ceil_le, sqrt_div_le_iff (Nat.cast_pos.2 hm) k.cast_nonneg]
    norm_cast
  rw [hnat, Int.natCast_ceil_eq_ceil (by positivity)]

theorem steps_eq_zero_iff {dx dy : Rat} {m : Nat} (hm : 0 < m) : steps dx dy m = 0 ↔ dx = 0 ∧ dy = 0 := by
  have hsq : dx ^ 2 + dy ^ 2 ≤ 0 ↔ dx ^ 2 + dy ^ 2 = 0 := ⟨fun h => le_antisymm h (by positivity), le_of_eq⟩
  rw [← Nat.le_zero, steps_le_iff hm, Nat.cast_zero, zero_mul, zero_pow two_ne_zero, hsq,
    add_eq_zero_iff_of_nonneg (sq_nonneg _) (sq_nonneg _), sq_eq_zero_iff, sq_eq_zero_iff]

/-- Settles O30: the search's test, minimality, and the ceiling and the zero read off its characterisation. -/
theorem stepCountIsLeast : Obligations.StepCountIsLeast := fun dx dy _ hm =>
  ⟨steps_spec dx dy hm, fun _ => steps_le, steps_eq_ceil dx dy hm, steps_eq_zero_iff hm⟩

/-! ### The samples of a move (R137 item 1) -/

theorem maxStep_on (p : Params) (s : State) :
    maxStep p s.on = if s.intensity ≠ 0 then p.maxStepOn else p.maxStepOff := if_congr (on_iff s) rfl rfl

theorem settleCycles_on (p : Params) (s : State) :
    settleCycles p s.on = if s.intensity ≠ 0 then p.cyclesToStableOn else p.cyclesToStableOff :=
  if_congr (on_iff s) rfl rfl

/-- R7 makes both step bounds positive. -/
theorem maxStep_pos {p : Params} (hp : p.Wf) (on : Bool) : 0 < maxStep p on := by
  obtain ⟨-, -, -, -, -, -, -, hon, hoff, -⟩ := hp
  cases on
  · exact hoff
  · exact hon

@[simp] theorem length_travelSamples (p : Params) (t : Point) (s : State) :
    (travelSamples p t s).length = moveSteps p t s + settleCycles p s.on := by
  simp [travelSamples]

/-- The first samples of a move are the interpolation points, from P_1 on. -/
theorem travelSamples_move {p : Params} {t : Point} {s : State} {k : Nat} (h1 : 1 ≤ k) (hk : k ≤ moveSteps p t s) :
    (travelSamples p t s)[k - 1]? = some (mkSample p (pathPoint s.pos t (moveSteps p t s) k) s.intensity) := by
  have hlt : k - 1 < moveSteps p t s := by omega
  rw [travelSamples, List.getElem?_append_left (by simpa using hlt), moveSamples, List.getElem?_map,
    List.getElem?_range' hlt, Option.map_some, show 1 + 1 * (k - 1) = k by omega]

/-- The samples after them are the settle dwell at the target. -/
theorem travelSamples_settle {p : Params} {t : Point} {s : State} {k : Nat} (hk : moveSteps p t s ≤ k)
    (hlt : k < (travelSamples p t s).length) : (travelSamples p t s)[k]? = some (mkSample p t s.intensity) := by
  rw [length_travelSamples] at hlt
  rw [travelSamples, List.getElem?_append_right (by simpa using hk), length_moveSamples,
    List.getElem?_replicate_of_lt (by omega)]

/-! ### The distance between consecutive points (R137 items 2 and 3) -/

theorem interpolation_succ (a d : Rat) (n k : Nat) :
    (a + d * (k + 1 : Nat) / n) - (a + d * k / n) = d / n := by
  push_cast
  ring

theorem pathPoint_succ_x (a t : Point) (n k : Nat) :
    (pathPoint a t n (k + 1)).x - (pathPoint a t n k).x = (t.x - a.x) / n := interpolation_succ _ _ n k

theorem pathPoint_succ_y (a t : Point) (n k : Nat) :
    (pathPoint a t n (k + 1)).y - (pathPoint a t n k).y = (t.y - a.y) / n := interpolation_succ _ _ n k

theorem dist2_comm (a b : Point) : dist2 a b = dist2 b a := by
  rw [dist2, dist2, sub_sq_comm a.x, sub_sq_comm a.y]

theorem dist2_pathPoint_succ (a t : Point) (n k : Nat) :
    dist2 (pathPoint a t n k) (pathPoint a t n (k + 1)) = ((t.x - a.x) ^ 2 + (t.y - a.y) ^ 2) / (n : Rat) ^ 2 := by
  rw [dist2_comm, dist2, pathPoint_succ_x, pathPoint_succ_y, div_pow, div_pow, add_div]

/-- n points keep every step within m exactly when n steps are enough. -/
theorem div_sq_le_sq_iff {d m : Rat} {n : Nat} (hn : 0 < n) : d / (n : Rat) ^ 2 ≤ m ^ 2 ↔ d ≤ (n * m) ^ 2 := by
  rw [div_le_iff₀ (by positivity), mul_pow, mul_comm]

/-! ### The distance between consecutive samples (R137 item 4) -/

/-- Flooring moves the difference of two values by less than 1. -/
theorem abs_floor_sub_floor_lt (a b : Rat) : |(b.floor : Rat) - a.floor| < |b - a| + 1 := by
  have ha0 := Rat.floor_le a
  have ha1 := Rat.lt_floor (x := a)
  have hb0 := Rat.floor_le b
  have hb1 := Rat.lt_floor (x := b)
  rw [abs_lt]
  constructor
  · linarith [neg_abs_le (b - a)]
  · linarith [le_abs_self (b - a)]

/-- Lengthening each axis of a vector of length at most m by less than 1 lengthens it by less than √2. -/
theorem sqrt_lt_add_sqrt_two {x y u v m : ℝ} (hx : |x| < |u| + 1) (hy : |y| < |v| + 1) (hm : 0 ≤ m)
    (huv : u ^ 2 + v ^ 2 ≤ m ^ 2) : √(x ^ 2 + y ^ 2) < m + √2 := by
  have h2 : √2 ^ 2 = (2 : ℝ) := Real.sq_sqrt zero_le_two
  have hsum : |u| + |v| ≤ √2 * m := by
    refine le_of_sq_le_sq ?_ (by positivity)
    calc (|u| + |v|) ^ 2 ≤ 2 * (|u| ^ 2 + |v| ^ 2) := add_sq_le
      _ ≤ (√2 * m) ^ 2 := by rw [sq_abs, sq_abs, mul_pow, h2]; gcongr
  rw [Real.sqrt_lt' (by positivity)]
  calc x ^ 2 + y ^ 2 < (|u| + 1) ^ 2 + (|v| + 1) ^ 2 :=
        add_lt_add (sq_lt_sq.2 (hx.trans_le (le_abs_self _))) (sq_lt_sq.2 (hy.trans_le (le_abs_self _)))
    _ = u ^ 2 + v ^ 2 + 2 * (|u| + |v|) + 2 := by rw [← sq_abs u, ← sq_abs v]; ring
    _ ≤ m ^ 2 + 2 * (√2 * m) + √2 ^ 2 := by rw [h2]; gcongr
    _ = (m + √2) ^ 2 := by ring

/-- The floored points of two points at most m apart are less than m + √2 apart. -/
theorem sqrt_floor_lt {a b : Point} {m : Nat} (h : dist2 a b ≤ (m : Rat) ^ 2) :
    √(((b.x.floor : ℝ) - a.x.floor) ^ 2 + ((b.y.floor : ℝ) - a.y.floor) ^ 2) < m + √2 := by
  rw [dist2_comm, dist2] at h
  have hx := abs_floor_sub_floor_lt a.x b.x
  have hy := abs_floor_sub_floor_lt a.y b.y
  exact sqrt_lt_add_sqrt_two (u := (b.x - a.x : Rat)) (v := (b.y - a.y : Rat)) (by exact_mod_cast hx)
    (by exact_mod_cast hy) m.cast_nonneg (by exact_mod_cast h)

/-- Settles O32: the samples of a whole move, and the constant difference of consecutive points. -/
theorem stepLaws : Obligations.StepLaws := by
  intro p t s m n hp hm hn
  rw [← maxStep_on] at hm
  have hm0 : 0 < m := hm ▸ maxStep_pos hp s.on
  have hsteps : moveSteps p t s = n := by rw [hn, hm, moveSteps]
  have hle : ∀ k, k + 1 ≤ n →
      dist2 (pathPoint s.pos t n k) (pathPoint s.pos t n (k + 1)) ≤ (m : Rat) ^ 2 := fun k hk => by
    rw [dist2_pathPoint_succ, div_sq_le_sq_iff (by omega), hn]
    exact steps_spec _ _ hm0
  refine ⟨⟨travelSamples p t s, ?_, ?_, ?_, setPosition_appended p t s⟩, ?_, ?_, ?_⟩
  · rw [length_travelSamples, hsteps, settleCycles_on]
  · exact fun k hk => travelSamples_settle (hsteps ▸ hk)
  · exact fun k h1 hk => hsteps ▸ travelSamples_move h1 (hsteps ▸ hk)
  · rintro (_ | k) h1 hk
    · cases h1
    · exact ⟨dist2_pathPoint_succ s.pos t n k, hle k hk⟩
  · exact fun n' h1 h => hn ▸ steps_le ((div_sq_le_sq_iff h1).1 h)
  · rintro (_ | k) h1 hk _ _ rfl rfl
    · cases h1
    · have hx := abs_floor_sub_floor_lt (pathPoint s.pos t n k).x (pathPoint s.pos t n (k + 1)).x
      have hy := abs_floor_sub_floor_lt (pathPoint s.pos t n k).y (pathPoint s.pos t n (k + 1)).y
      rw [pathPoint_succ_x, abs_div, Nat.abs_cast] at hx
      rw [pathPoint_succ_y, abs_div, Nat.abs_cast] at hy
      exact ⟨hx, hy, sqrt_floor_lt (hle k hk)⟩

end Sys2Proof.Machine
end

section
/-!
PROOFS. The statements of 43_rasterizer.md: the sample order of a discontinuous line (R163) and the scale factor in raw
operands (R162, R182).
-/

namespace Sys2Proof.Machine

open Sys2Proof

/-! ### What setOn leaves of the beam (R130) -/

@[simp] theorem setOn_pos (p : Params) (i : BitVec 8) (s : State) : (setOn p i s).pos = s.pos := by
  by_cases h : lit i = s.on
  · rw [setOn_same h]
  · rw [setOn_change h]
    simp [State.pos]

/-- The test of setOn, on the intensities (R24). -/
theorem lit_eq_on_iff (i : BitVec 8) (s : State) : lit i = s.on ↔ (i ≠ 0 ↔ s.intensity ≠ 0) :=
  lit_eq_lit_iff i s.intensity

theorem switchCycles_lit (p : Params) (i : BitVec 8) :
    switchCycles p (lit i) = if i ≠ 0 then p.cyclesToOn else p.cyclesToOff := if_congr (lit_iff i) rfl rfl

theorem setOn_intensity (p : Params) (i : BitVec 8) (s : State) :
    (setOn p i s).intensity = if (i ≠ 0 ↔ s.intensity ≠ 0) then s.intensity else i := by
  by_cases h : lit i = s.on
  · rw [setOn_same h, if_pos ((lit_eq_on_iff i s).1 h)]
  · rw [setOn_change h, appendAll_intensity, if_neg fun hi => h ((lit_eq_on_iff i s).2 hi)]

/-- The dwell that setOn appends, by the intensities before and after. -/
theorem setOn_appended_of_intensity (p : Params) (i : BitVec 8) (s : State) :
    Appended p
      (if (i ≠ 0 ↔ s.intensity ≠ 0) then []
      else List.replicate (if i ≠ 0 then p.cyclesToOn else p.cyclesToOff) (mkSample p s.pos i))
      s (setOn p i s) := by
  simpa only [lit_eq_on_iff, switchCycles_lit] using setOn_appended p i s

/-- Blanking leaves no intensity: a beam that is OFF has the intensity 0. -/
@[simp] theorem setOn_zero_intensity (p : Params) (s : State) : (setOn p 0 s).intensity = 0 := by
  rw [setOn_intensity]
  by_cases hs : s.intensity = 0 <;> simp [hs]

/-- From dark, the beam takes the intensity it is set to, 0 or not. -/
theorem setOn_intensity_of_dark (p : Params) (i : BitVec 8) {s : State} (h : s.intensity = 0) :
    (setOn p i s).intensity = i := by
  rw [setOn_intensity]
  by_cases hi : i = 0#8 <;> simp [hi, h]

/-- Blanking appends the off dwell, if the beam was ON. -/
theorem setOn_zero_appended (p : Params) (s : State) :
    Appended p (if s.intensity ≠ 0 then List.replicate p.cyclesToOff (mkSample p s.pos 0) else []) s
      (setOn p 0 s) := by
  have h := setOn_appended_of_intensity p 0 s
  by_cases hs : s.intensity = 0 <;> simpa [hs] using h

/-- From dark, setting the beam appends the on dwell, if the intensity is not 0. -/
theorem setOn_appended_of_dark (p : Params) (i : BitVec 8) {s : State} (h : s.intensity = 0) :
    Appended p (if i ≠ 0 then List.replicate p.cyclesToOn (mkSample p s.pos i) else []) s (setOn p i s) := by
  have ha := setOn_appended_of_intensity p i s
  by_cases hi : i = 0#8 <;> simpa [hi, h] using ha

/-! ### The samples of a move, by the beam's class (R132, R134) -/

theorem travelSamples_eq (p : Params) (t : Point) (s : State) :
    travelSamples p t s = pathSamples p s.pos t (maxStep p s.on) s.intensity ++
      List.replicate (settleCycles p s.on) (mkSample p t s.intensity) := rfl

/-- A move's samples, from the beam's position and intensity. -/
theorem setPosition_appended_of_beam (p : Params) (t : Point) {s : State} {a : Point} {i : BitVec 8}
    (hpos : s.pos = a) (hi : s.intensity = i) :
    Appended p
      (if i ≠ 0 then pathSamples p a t p.maxStepOn i ++ List.replicate p.cyclesToStableOn (mkSample p t i)
      else pathSamples p a t p.maxStepOff i ++ List.replicate p.cyclesToStableOff (mkSample p t i))
      s (setPosition p t s) := by
  subst hpos hi
  have h := setPosition_appended p t s
  rw [travelSamples_eq, maxStep_on, settleCycles_on] at h
  split at h
  case isTrue hon => rwa [if_pos hon]
  case isFalse hoff => rwa [if_neg hoff]

/-! ### Blank and jump (R160, step 2) -/

@[simp] theorem blankJump_pos (p : Params) (p0 : Point) (s : State) : (blankJump p p0 s).pos = p0 :=
  setPosition_pos _ _ _

@[simp] theorem blankJump_intensity (p : Params) (p0 : Point) (s : State) : (blankJump p p0 s).intensity = 0 := by
  rw [blankJump, setPosition_intensity, setOn_zero_intensity]

/-- The off dwell, if the beam was ON, and then the dark jump with its settle dwell. -/
theorem blankJump_appended (p : Params) (p0 : Point) (s : State) :
    Appended p
      ((if s.intensity ≠ 0 then List.replicate p.cyclesToOff (mkSample p s.pos 0) else []) ++
        (pathSamples p s.pos p0 p.maxStepOff 0 ++ List.replicate p.cyclesToStableOff (mkSample p p0 0)))
      s (blankJump p p0 s) :=
  (setOn_zero_appended p s).trans
    (setPosition_appended_of_beam p p0 (setOn_pos p 0 s) (setOn_zero_intensity p s))

/-! ### A discontinuous line (R160, R163) -/

theorem near_eq_false_iff {p : Params} {a b : Point} :
    near p a b = false ↔ (p.contTol : Rat) ^ 2 < dist2 a b := by
  rw [← Bool.not_eq_true, near_iff, not_le]

/-- LINE after INIT, with both scaled endpoints in range, raises no error. -/
theorem line_of_inRange {p : Params} {x0 y0 x1 y1 : Rat} {c : BitVec 8} {s : State} (hi : s.initDone = true)
    (h0 : inRange p (scalePoint s.scale ⟨x0, y0⟩) = true)
    (h1 : inRange p (scalePoint s.scale ⟨x1, y1⟩) = true) :
    line p x0 y0 x1 y1 c s = renderLine p (scalePoint s.scale ⟨x0, y0⟩) (scalePoint s.scale ⟨x1, y1⟩) c s := by
  simp [line, hi, h0, h1]

@[simp] theorem renderLine_pos (p : Params) (p0 p1 : Point) (c : BitVec 8) (s : State) :
    (renderLine p p0 p1 c s).pos = p1 := setPosition_pos _ _ _

/-- A drawing command's frame, once the beam it leaves is known. -/
theorem SameButBeam.sameButFrame {s t : State} {a : Point} {i : BitVec 8} (h : SameButBeam s t) (hpos : t.pos = a)
    (hi : t.intensity = i) : SameButFrame { s with posX := a.x, posY := a.y, intensity := i } t := by
  subst hpos hi
  rw [← h]
  rfl

section Jump
variable {p : Params} {p0 p1 : Point} {c : BitVec 8} {s : State}

/-- After a jump the colour is applied whichever value RASTER_SETON_ALWAYS has. -/
theorem renderLine_jump (h : near p s.pos p0 = false) :
    renderLine p p0 p1 c s = setPosition p p1 (setOn p c (blankJump p p0 s)) := by
  simp [renderLine, h]

theorem renderLine_jump_intensity (h : near p s.pos p0 = false) : (renderLine p p0 p1 c s).intensity = c := by
  rw [renderLine_jump h, setPosition_intensity, setOn_intensity_of_dark p c (blankJump_intensity p p0 s)]

theorem renderLine_jump_appended (h : near p s.pos p0 = false) :
    Appended p
      (((if s.intensity ≠ 0 then List.replicate p.cyclesToOff (mkSample p s.pos 0) else []) ++
        (pathSamples p s.pos p0 p.maxStepOff 0 ++ List.replicate p.cyclesToStableOff (mkSample p p0 0))) ++
        (if c ≠ 0 then List.replicate p.cyclesToOn (mkSample p p0 c) else []) ++
        (if c ≠ 0 then
          pathSamples p p0 p1 p.maxStepOn c ++ List.replicate p.cyclesToStableOn (mkSample p p1 c)
        else
          pathSamples p p0 p1 p.maxStepOff c ++ List.replicate p.cyclesToStableOff (mkSample p p1 c)))
      s (renderLine p p0 p1 c s) := by
  have hdark : (blankJump p p0 s).intensity = 0 := blankJump_intensity p p0 s
  have hpos : (setOn p c (blankJump p p0 s)).pos = p0 := by simp
  have hlight := setOn_appended_of_dark p c hdark
  rw [blankJump_pos] at hlight
  rw [renderLine_jump h]
  exact ((blankJump_appended p p0 s).trans hlight).trans
    (setPosition_appended_of_beam p p1 hpos (setOn_intensity_of_dark p c hdark))

/-- Only the frame and the beam change, and the beam is at p1 with the colour as its intensity. -/
theorem renderLine_jump_sameButFrame (h : near p s.pos p0 = false) :
    SameButFrame { s with posX := p1.x, posY := p1.y, intensity := c } (renderLine p p0 p1 c s) :=
  (renderLine_sameButBeam p p0 p1 c s).sameButFrame (renderLine_pos p p0 p1 c s) (renderLine_jump_intensity h)

end Jump

/-- Settles O34: the four parts of `renderLine` one after another, each from the beam the one before it leaves. -/
theorem discontinuousLine : Obligations.DiscontinuousLine := by
  refine ⟨fun _ _ _ _ _ _ => rfl, ?_⟩
  rintro p x0 y0 x1 y1 c s _ _ - hi rfl rfl h0 h1 hfar
  have hjump := near_eq_false_iff.2 hfar
  rw [line_of_inRange hi h0 h1]
  exact ⟨renderLine_jump_appended hjump, renderLine_jump_sameButFrame hjump⟩

/-! ### The scale factor in raw operands (R162, R182) -/

theorem max_uq16 (a b : Word) : max (uq16 a) (uq16 b) = (max a.toNat b.toNat : Nat) / 65536 := by
  rw [uq16, uq16, max_div_div_right (by norm_num), Nat.cast_max]

/-- The factor INIT writes from two raw operands (R182). -/
theorem scaleFactor_uq16 (p : Params) (a b : Word) :
    scaleFactor p (uq16 a) (uq16 b) = p.maxCoord * 65536 / (max a.toNat b.toNat : Nat) := by
  rw [scaleFactor, max_uq16, div_div_eq_mul_div]

/-- INIT that is not refused leaves the scale factor of its dimensions in SCALE (R181). -/
theorem init_scale {p : Params} {w v : Rat} (h : max w v ≠ 0) (s : State) :
    (init p w v s).scale = scaleFactor p w v := by
  rcases init_cases p w v s with ⟨h0, -⟩ | ⟨-, hinit⟩
  · exact absurd h0 h
  · rw [hinit]
    exact openDevice_scale _ _

/-- A coordinate word times the factor for M: 65536 cancels (R162). -/
theorem q16_mul_scale (k m : Rat) (w : Word) : q16 w * (k * 65536 / m) = k * w.toInt / m := by
  rw [q16]
  ring

/-- k z / m lies in 0 to k exactly when z lies in 0 to m. -/
theorem mul_div_mem_iff {k m z : Rat} (hk : 0 < k) (hm : 0 < m) :
    (0 ≤ k * z / m ∧ k * z / m ≤ k) ↔ (0 ≤ z ∧ z ≤ m) := by
  rw [le_div_iff₀ hm, zero_mul, mul_nonneg_iff_of_pos_left hk, div_le_iff₀ hm, mul_le_mul_iff_right₀ hk]

/-- Settles O39: the factor and a coordinate word share the denominator 65536, which cancels. -/
theorem scaleInRawOperands : Obligations.ScaleInRawOperands := by
  rintro a b w v s _ m rfl hm h
  cases h
  have hm' : (0 : Rat) < (max a.toNat b.toNat : Nat) := Nat.cast_pos.2 hm
  have hscale : (init Params.hw (uq16 a) (uq16 b) s).scale = 4095 * 65536 / (max a.toNat b.toNat : Nat) := by
    rw [init_scale (by rw [max_uq16]; positivity), scaleFactor_uq16]
    norm_num [Params.hw]
  rw [hscale, scalePoint, q16_mul_scale, q16_mul_scale, mul_div_mem_iff (by norm_num) hm']
  exact ⟨rfl, rfl, by norm_cast⟩

end Sys2Proof.Machine
end

section
/-!
PROOFS. The statement of 44_init.md about the scaling round trip (R183).
-/

namespace Sys2Proof.Machine

open Sys2Proof

/-- Dividing the coordinates of a scaled point by a factor that is not 0 undoes `scalePoint`. -/
theorem scalePoint_div {k : Rat} (hk : k ≠ 0) (a : Point) :
    (scalePoint k a).x / k = a.x ∧ (scalePoint k a).y / k = a.y :=
  ⟨mul_div_cancel_right₀ a.x hk, mul_div_cancel_right₀ a.y hk⟩

/-- Settles O40: after INIT the invariants keep the factor positive (R37 item 4), so it cancels. -/
theorem scalingRoundTrip : Obligations.ScalingRoundTrip := fun a _ hinv hinit =>
  scalePoint_div (hinv.scale_pos hinit).ne' a

end Sys2Proof.Machine
end

section
/-!
PROOFS. The statements of 60_exceptions.md about when an error is raised: NOT_INIT (R204), RANGE (R205), PARAM (R206), and
the order of the checks on one command (R207).
-/

namespace Sys2Proof

/-- INIT alone has opcode 0x01 (R73). -/
theorem ne_init_of_opc_ne {h : Word} {ops : List Word} {i : Instr} (hd : decodeCommand (h :: ops) = .ok i)
    (ho : opc h ≠ 0x01) (w v : Rat) : i ≠ .init w v := by
  rintro rfl
  rcases decodeCommand_ok hd with ⟨a, b, hws, -⟩ | ⟨_, -, hi⟩ | ⟨_, _, -, hi⟩ | ⟨_, _, _, _, _, -, hi⟩ | ⟨-, hi⟩
  · obtain ⟨rfl, -⟩ := List.cons.inj hws
    exact ho (opc_header _ _)
  all_goals cases hi

end Sys2Proof

namespace Sys2Proof.Machine

open Sys2Proof

/-! ### Where each error is raised (R204 to R206) -/

section Raises
variable {p : Params} {s : State}

/-- Before INIT every command but INIT raises NOT_INIT, whatever its operands (R204). -/
theorem execWith_notInit {i : Instr} (hi : s.initDone = false) (hne : ∀ w v, i ≠ .init w v) :
    execWith p i s = .next (raise .notInit s) := by
  cases i with
  | init w v => exact absurd rfl (hne w v)
  | seton c => exact congrArg Host.Outcome.next (if_pos hi)
  | setpos x y => exact congrArg Host.Outcome.next (if_pos hi)
  | line x0 y0 x1 y1 c => exact congrArg Host.Outcome.next (if_pos hi)
  | emit => exact if_pos hi

theorem execWith_setpos_outOfRange {x y : Rat} (hi : s.initDone = true) (hr : inRange p ⟨x, y⟩ = false) :
    execWith p (.setpos x y) s = .next (raise .range s) := by
  rw [execWith, setpos, if_neg (by simp [hi]), if_pos hr]

/-- One scaled endpoint out of range is enough for LINE to be refused (R205). -/
theorem execWith_line_outOfRange {x0 y0 x1 y1 : Rat} (hi : s.initDone = true)
    (hr : inRange p (scalePoint s.scale ⟨x0, y0⟩) = false ∨ inRange p (scalePoint s.scale ⟨x1, y1⟩) = false)
    (c : BitVec 8) : execWith p (.line x0 y0 x1 y1 c) s = .next (raise .range s) := by
  rw [execWith, line, if_neg (by simp [hi])]
  exact congrArg Host.Outcome.next (if_pos (Bool.and_eq_false_iff.2 hr))

theorem execWith_init_zero (p : Params) (s : State) : execWith p (.init 0 0) s = .next (raise .param s) :=
  congrArg Host.Outcome.next (if_pos (max_self 0))

theorem raise_sameButErrors (e : ErrCond) (s : State) : SameButErrors s (raise e s) := rfl

end Raises

/-- Outside the range of this hardware's coordinates: past one of the four bounds (R205). -/
theorem inRange_hw_eq_false_iff (a : Point) :
    inRange Params.hw a = false ↔ a.x < 0 ∨ 4095 < a.x ∨ a.y < 0 ∨ 4095 < a.y := by
  rw [← Bool.not_eq_true, inRange_iff]
  simp only [not_and_or, not_le]
  rfl

/-- Settles O20: each of the four commands tests INIT_DONE before it looks at its operands. -/
theorem commandsBeforeInitRaiseNotInit : Obligations.CommandsBeforeInitRaiseNotInit := by
  intro s hi
  rw [exec_eq_execWith]
  exact ⟨fun _ => execWith_notInit hi nofun, fun _ _ => execWith_notInit hi nofun,
    fun _ _ _ _ _ => execWith_notInit hi nofun, execWith_notInit hi nofun⟩

/-- Settles O21: SETPOS tests its target, and LINE both scaled endpoints, before any write. -/
theorem outOfRangeTargetsRaiseRange : Obligations.OutOfRangeTargetsRaiseRange := by
  intro s hi
  rw [exec_eq_execWith]
  constructor
  · intro x y hout
    exact execWith_setpos_outOfRange hi ((inRange_hw_eq_false_iff _).2 hout)
  · intro x0 y0 x1 y1 c hout
    refine execWith_line_outOfRange hi ?_ c
    rw [inRange_hw_eq_false_iff, inRange_hw_eq_false_iff]
    simpa only [scalePoint, or_assoc] using hout

/-- Settles O22: the larger of the two bounds is 0, and `raise` writes the error registers and the trace only. -/
theorem zeroBoundsRaiseParam : Obligations.ZeroBoundsRaiseParam := fun s =>
  ⟨execWith_init_zero Params.hw s, raise_sameButErrors .param s⟩

/-! ### The order of the checks (R207) -/

theorem execute_ok {ws : List Word} {i : Instr} (hd : decodeCommand ws = .ok i) (s : State) :
    execute ws s = execWith Params.hw i s := by
  rw [execute, executeBy_ok hd, exec_eq_execWith]

/-- A command that completes records one ERROR event or none. -/
theorem countP_newEvents_le_one {ws : List Word} {s t : State} (h : execute ws s = .next t) :
    (newEvents s t).countP Event.isError ≤ 1 := by
  rcases execute_cases h with ⟨e, rfl⟩ | ⟨-, -, -, -, -, -, -, l, htrace, hl⟩
  · rw [newEvents_of_trace (raise_trace e s)]
    exact List.countP_le_length
  · rw [newEvents_of_trace htrace, List.countP_eq_zero.2 fun ev hev => by simp [hl ev hev]]
    exact Nat.zero_le 1

/-- Settles O23: the header's checks come before decoding, and each command's own in the order of its rule. -/
theorem errorPriority : Obligations.ErrorPriority := by
  intro h ops s _
  refine ⟨fun ho => ?reserved, fun _ hf => ?fields, fun i hd ho hi => ?notInit, ?zeroBounds,
    fun x y hd hi hr => ?setpos, fun x0 y0 x1 y1 c hd hi hr => ?line, fun _ => countP_newEvents_le_one⟩
  case reserved => exact executeBy_illegal (fun ⟨hdef, _, _⟩ => by simp [ho] at hdef) ops
  case fields => exact executeBy_illegal (fun ⟨_, hr, hz⟩ => hf.elim (· hr) fun ⟨hm, hne⟩ => hne (hz hm)) ops
  case notInit => rw [execute_ok hd, execWith_notInit hi (ne_init_of_opc_ne hd ho)]
  case zeroBounds =>
    rintro _ _ hd rfl rfl
    rw [execute_ok hd, execWith_init_zero]
  case setpos => rw [execute_ok hd, execWith_setpos_outOfRange hi hr]
  case line => rw [execute_ok hd, execWith_line_outOfRange hi hr]

end Sys2Proof.Machine
end

section
/-!
PROOFS. The statement of 70_reset_and_hazards.md about what reset leaves (R230).
-/

namespace Sys2Proof.Machine

open Sys2Proof

/-- An entry not written since reset reads as a free value (R59, I2). -/
theorem read_of_get?_eq_none {m : Memory} {i : Nat} (h : m.get? i = none) : m.read i = Config.freeFbEntry i := by
  simp [Memory.read, h]

/-! ### A word taken at a command boundary is a header (R75) -/

section Boundary

variable {w : Word} {s : State}

theorem onWord_boundary_partial (hp : s.pend = []) (h : 1 < cmdLen (opc w)) :
    onWord w s = .next { s with pend := [w] } := by
  have hword : s.pend ++ [w] = [w] := by rw [hp, List.nil_append]
  have hpart : pendComplete (s.pend ++ [w]) = false := by
    rw [hword, ← Bool.not_eq_true, pendComplete_iff]
    exact h.ne
  rw [onWord_partial hpart, hword]

theorem onWord_boundary_whole (hp : s.pend = []) (h : cmdLen (opc w) = 1) :
    onWord w s = retireOutcome 1 (execute [w] { s with pend := [w] }) := by
  have hword : s.pend ++ [w] = [w] := by rw [hp, List.nil_append]
  have hwhole : pendComplete (s.pend ++ [w]) = true := by
    rw [hword, pendComplete_iff]
    exact h.symm
  rw [onWord_complete hwhole, hword, List.length_singleton]

end Boundary

/-- Settles O12: the registers are R230's by definition, no entry is listed as written, and PEND is empty. -/
theorem resetLeaves : Obligations.ResetLeaves :=
  ⟨rfl, rfl, rfl, rfl, rfl, rfl, rfl, rfl, rfl, rfl, rfl, rfl, rfl, rfl, rfl,
    fun _ => read_of_get?_eq_none rfl, fun _ => onWord_boundary_partial rfl, fun _ => onWord_boundary_whole rfl⟩

end Sys2Proof.Machine
end

section
/-!
PROOFS. The statements of 30_encoding.md and 20_memory.md about the encoding: decoding and encoding undo one another (R70
to R83), the opcode map (R73), and words carried as bytes (R55, R56).
-/

namespace Sys2Proof

/-! ### Decoding what was encoded (R71 to R73) -/

/-- A whole command at the front of the words is decoded, and the words after it are left. -/
theorem decode_command {h : Word} {ops : List Word} {i : Instr} (hlen : (h :: ops).length = cmdLen (opc h))
    (hd : decodeCommand (h :: ops) = .ok i) (rest : List Word) : decode (h :: ops ++ rest) = .ok (i, rest) := by
  have henough : ¬ (ops ++ rest).length + 1 < cmdLen (opc h) := by
    rw [List.length_append]
    rw [List.length_cons] at hlen
    omega
  rw [List.cons_append, decode, if_neg henough, ← List.cons_append, List.take_left' hlen, List.drop_left' hlen, hd]

/-- The encoder's header is legal and stands for as many words as the encoder gives. -/
theorem encodedHeader (i : Instr) : Laws.EncodedHeader.Statement i := by
  cases i with
  | init w v => exact Laws.EncodedHeader.init w v
  | seton c => exact Laws.EncodedHeader.seton c
  | setpos x y => exact Laws.EncodedHeader.setpos x y
  | line x0 y0 x1 y1 c => exact Laws.EncodedHeader.line x0 y0 x1 y1 c
  | emit => exact Laws.EncodedHeader.emit

/-- Encoding writes a whole command behind a legal header. -/
theorem encode_eq_cons (i : Instr) :
    ∃ h ops, encode i = h :: ops ∧ (h :: ops).length = cmdLen (opc h) ∧ LegalHeader h := by
  obtain ⟨h, ops, he, hlen, ho, hr, hz⟩ := encodedHeader i
  exact ⟨h, ops, he, he ▸ hlen, ho, hr, hz⟩

/-- The encoder's operand words, behind its header, read back as the operands. -/
theorem decodeOperands_encode {i : Instr} (hi : i.WellFormed = true) {h : Word} {ops : List Word}
    (he : encode i = h :: ops) : decodeOperands h ops = .ok i := by
  unfold decodeOperands
  cases i with
  | init w v =>
    obtain ⟨hw, hv⟩ := Bool.and_eq_true_iff.1 hi
    cases he
    rw [opc_header]
    change Except.ok (Instr.init _ _) = _
    rw [uq16_toUq16 hw, uq16_toUq16 hv]
  | seton c =>
    cases he
    rw [opc_header]
    change Except.ok (Instr.seton _) = _
    rw [imm8_header]
  | setpos x y =>
    obtain ⟨hx, hy⟩ := Bool.and_eq_true_iff.1 hi
    cases he
    rw [opc_header]
    change Except.ok (Instr.setpos _ _) = _
    rw [q16_toQ16 hx, q16_toQ16 hy]
  | line x0 y0 x1 y1 c =>
    simp only [Instr.WellFormed, Bool.and_eq_true] at hi
    obtain ⟨⟨⟨hx0, hy0⟩, hx1⟩, hy1⟩ := hi
    cases he
    rw [opc_header]
    change Except.ok (Instr.line _ _ _ _ _) = _
    rw [q16_toQ16 hx0, q16_toQ16 hy0, q16_toQ16 hx1, q16_toQ16 hy1, imm8_header]
  | emit =>
    cases he
    rw [opc_header]
    rfl

theorem decodeCommand_encode {i : Instr} (hi : i.WellFormed = true) : decodeCommand (encode i) = .ok i := by
  obtain ⟨h, ops, he, -, hl⟩ := encode_eq_cons i
  rw [he, decodeCommand_legal hl, decodeOperands_encode hi he]

/-- Settles O4: the encoder writes one whole command, whose header is legal and whose operand words read back. -/
theorem decodeOfEncodeIsIdentity : Obligations.DecodeOfEncodeIsIdentity := by
  intro i rest hi
  obtain ⟨h, ops, he, hlen, -⟩ := encode_eq_cons i
  have hd := decodeCommand_encode hi
  rw [he] at hd ⊢
  exact decode_command hlen hd rest

/-- A whole command that decodes has the words that encode what it decodes to. -/
theorem encode_of_decodeCommand {ws : List Word} {i : Instr} (h : decodeCommand ws = .ok i) : encode i = ws := by
  rcases decodeCommand_ok h with ⟨w, v, rfl, rfl⟩ | ⟨imm, rfl, rfl⟩ | ⟨x, y, rfl, rfl⟩ |
    ⟨imm, x0, y0, x1, y1, rfl, rfl⟩ | ⟨rfl, rfl⟩ <;> simp only [encode, toUq16_uq16, toQ16_q16]

/-- Settles O5: the words are one whole command and the rest, and the command's words are its encoding. -/
theorem encodeOfDecodeIsIdentity : Obligations.EncodeOfDecodeIsIdentity := by
  intro ws rest i h
  obtain ⟨hd, ops, rfl, -, hc⟩ := decode_ok h
  exact ⟨Machine.wellFormed_of_decodeCommand hc, by rw [encode_of_decodeCommand hc]⟩

/-- Settles O2: the decoder, run on each of the seven lists of words. -/
theorem workedEncodingsDecode : Obligations.WorkedEncodingsDecode := by
  refine ⟨?_, ?_, ?_, ?_, ?_, ?_, ?_⟩ <;> decide +kernel

/-! ### The assembler (R83) -/

/-- Settles O9: the assembler gives the encoding of a well-formed command, and any other command has no words. -/
theorem assemblerNeverRounds : Obligations.AssemblerNeverRounds := by
  have hback : ∀ i : Instr, i.WellFormed = true → decode (encode i) = .ok (i, []) := fun i hi => by
    simpa using decodeOfEncodeIsIdentity i [] hi
  constructor
  · intro i ws h
    rw [Machine.asmCommand] at h
    split at h
    · injection h with h
      exact h ▸ hback i ‹_›
    · cases h
  · intro i hnone
    exact if_neg fun hi => hnone (encode i) (hback i hi)

/-! ### The opcode map (R73) -/

theorem imm8_free_mask (h : Word) :
    opc (h &&& 0xFFFF00FF) = opc h ∧ imm8 (h &&& 0xFFFF00FF) = 0 ∧ rsv (h &&& 0xFFFF00FF) = rsv h := by
  have hopc : opc (0xFFFF00FF : Word) = BitVec.allOnes 8 := by decide
  have himm : imm8 (0xFFFF00FF : Word) = 0 := by decide
  have hrsv : rsv (0xFFFF00FF : Word) = BitVec.allOnes 16 := by decide
  unfold opc imm8 rsv at *
  simp only [BitVec.extractLsb'_and, hopc, himm, hrsv, BitVec.and_allOnes]
  exact ⟨trivial, BitVec.and_zero, trivial⟩

/-- A row whose mask covers the whole header is selected by one header. -/
theorem full_mask_iff {h : Word} {o : BitVec 8} :
    h &&& 0xFFFFFFFF = header o 0 ↔ opc h = o ∧ imm8 h = 0 ∧ rsv h = 0 := by
  have hall : (0xFFFFFFFF : Word) = BitVec.allOnes 32 := by decide
  rw [hall, BitVec.and_allOnes, header_eq_iff]

/-- A row whose mask leaves IMM8 out is selected by the headers that differ in IMM8 only. -/
theorem imm8_free_mask_iff {h : Word} {o : BitVec 8} :
    h &&& 0xFFFF00FF = header o 0 ↔ opc h = o ∧ rsv h = 0 := by
  obtain ⟨hopc, himm, hrsv⟩ := imm8_free_mask h
  rw [header_eq_iff, hopc, himm, hrsv]
  simp

/-- A row selects exactly the legal headers of its opcode. -/
theorem selects_iff {r : OpcodeRow} (hr : r ∈ opcodeTable) (h : Word) :
    r.selects h = true ↔ opc h = r.opcode ∧ LegalHeader h := by
  have full : ∀ o, opcDefined o = true → imm8MustBeZero o = true →
      (h &&& 0xFFFFFFFF = header o 0 ↔ opc h = o ∧ LegalHeader h) := fun o ho hz => by
    rw [full_mask_iff]
    refine and_congr_right fun hopc => ?_
    simp [LegalHeader, hopc, ho, hz, and_comm]
  have free : ∀ o, opcDefined o = true → imm8MustBeZero o = false →
      (h &&& 0xFFFF00FF = header o 0 ↔ opc h = o ∧ LegalHeader h) := fun o ho hz => by
    rw [imm8_free_mask_iff]
    refine and_congr_right fun hopc => ?_
    simp [LegalHeader, hopc, ho, hz]
  simp only [opcodeTable, List.mem_cons, List.not_mem_nil, or_false] at hr
  rw [OpcodeRow.selects, beq_iff_eq]
  rcases hr with rfl | rfl | rfl | rfl | rfl
  · exact full 0x01 rfl rfl
  · exact free 0x02 rfl rfl
  · exact full 0x03 rfl rfl
  · exact free 0x04 rfl rfl
  · exact full 0x05 rfl rfl

theorem exists_row_of_opcDefined {o : BitVec 8} (h : opcDefined o = true) : ∃ r ∈ opcodeTable, o = r.opcode := by
  rcases opc_cases h with rfl | rfl | rfl | rfl | rfl <;> decide

/-- A header selects a row exactly when it is legal. -/
theorem exists_selects_iff (h : Word) : (∃ r ∈ opcodeTable, r.selects h = true) ↔ LegalHeader h := by
  constructor
  · rintro ⟨r, hr, hs⟩
    exact ((selects_iff hr h).1 hs).2
  · intro hl
    obtain ⟨r, hr, ho⟩ := exists_row_of_opcDefined hl.1
    exact ⟨r, hr, (selects_iff hr h).2 ⟨ho, hl⟩⟩

/-- A whole command decodes exactly when its header is legal. -/
theorem decodeCommand_ok_iff {h : Word} {ops : List Word} (hlen : (h :: ops).length = cmdLen (opc h)) :
    (∃ i, decodeCommand (h :: ops) = .ok i) ↔ LegalHeader h := by
  by_cases hl : LegalHeader h
  · rw [decodeCommand_legal hl]
    exact iff_of_true (decodeOperands_whole hl.1 hlen) hl
  · obtain ⟨e, he⟩ := decodeCommand_illegal hl ops
    rw [he]
    exact iff_of_false nofun hl

/-- Settles O6: a row selects the legal headers of its opcode, and the table lists each opcode once, with its length. -/
theorem opcodeRowsDecideLegality : Obligations.OpcodeRowsDecideLegality := by
  have hunique : ∀ r ∈ opcodeTable, ∀ r' ∈ opcodeTable, r.opcode = r'.opcode → r = r' := by decide
  have hlength : ∀ r ∈ opcodeTable, r.length = cmdLen r.opcode := by decide
  refine ⟨fun h ops hlen => ?_, fun h r hr r' hr' hs hs' => ?_, fun h r hr hs => ?_⟩
  · rw [decodeCommand_ok_iff hlen, exists_selects_iff]
  · obtain ⟨ho, -⟩ := (selects_iff hr h).1 hs
    obtain ⟨ho', -⟩ := (selects_iff hr' h).1 hs'
    exact hunique r hr r' hr' (ho.symm.trans ho')
  · obtain ⟨ho, -⟩ := (selects_iff hr h).1 hs
    exact ⟨ho.symm, ho ▸ hlength r hr⟩

/-! ### Byte transport (R55, R56) -/

theorem wordsOfBytes_bytesOfWord (w : Word) (bs : List Byte) :
    wordsOfBytes (bytesOfWord w ++ bs) = w :: wordsOfBytes bs :=
  congrArg (· :: wordsOfBytes bs) (word_of_its_bytes w)

/-- Bytes that end inside a word deliver no word (R56). -/
theorem wordsOfBytes_short {bs : List Byte} (h : bs.length < 4) : wordsOfBytes bs = [] := by
  rcases bs with _ | ⟨b0, _ | ⟨b1, _ | ⟨b2, _ | ⟨b3, bs⟩⟩⟩⟩
  case cons.cons.cons.cons =>
    simp only [List.length_cons] at h
    omega
  all_goals rfl

/-- Settles O7: word by word, and then the short tail. -/
theorem byteTransportDeliversWords : Obligations.ByteTransportDeliversWords := by
  intro ws tail htail
  induction ws with
  | nil => exact wordsOfBytes_short htail
  | cons w ws ih => rw [List.flatMap_cons, List.append_assoc, wordsOfBytes_bytesOfWord, ih]

end Sys2Proof
end

section
/-!
PROOFS. The statements of 60_exceptions.md about what an error records (R202), and the statements about the whole machine:
the error registers (R33, R34), the trace (R212), and the host's words (R75, R211).
-/

namespace Sys2Proof.Machine

open Sys2Proof

/-! ### What raising an error records (R33, R34, R202) -/

theorem ErrCond.getLsbD_mask (e : ErrCond) (b : Nat) : e.mask.getLsbD b = decide (b = e.bit) := by
  have hbit : e.bit < 32 := by cases e <;> decide
  change (BitVec.twoPow 32 e.bit).getLsbD b = _
  simp [BitVec.getLsbD_twoPow, hbit, eq_comm]

/-- Settles O19: the mask is the one bit, and the first error's registers are written where none was recorded. -/
theorem raiseRecordsTheError : Obligations.RaiseRecordsTheError := by
  intro e s
  refine ⟨?_, fun b hb => ?_, fun h0 => ?_, fun h0 => ?_, rfl, raise_sameButErrors e s, ⟨rfl, rfl, rfl, rfl⟩,
    ⟨rfl, rfl, rfl, rfl⟩⟩
  · simp [ErrCond.getLsbD_mask]
  · simp [ErrCond.getLsbD_mask, hb]
  · exact ⟨if_pos h0, if_pos h0⟩
  · exact ⟨if_neg h0, if_neg h0⟩

/-- Settles O24: a command that raises no error appends no ERROR event. -/
theorem errorsArePrecise : Obligations.ErrorsArePrecise := by
  intro i s t h
  rcases exec_cases h with herr | ⟨hstatus, hcause, hcwp, -, -, -, -, l, htrace, hl⟩
  · exact .inl herr
  · rw [newEvents_of_trace htrace]
    exact .inr ⟨hstatus, hcause, hcwp, hl⟩

/-! ### What grows with every step -/

/-- What no command and no step takes back: a STATUS bit, the first error, the trace, and the count of answers. -/
structure Grows (s t : State) : Prop where
  status : ∀ b, s.status.getLsbD b = true → t.status.getLsbD b = true
  firstErr : s.firstErrCause ≠ 0 → t.firstErrCause = s.firstErrCause ∧ t.firstErrCwp = s.firstErrCwp
  trace : s.trace <+: t.trace
  drawn : s.drawn ≤ t.drawn

theorem Grows.refl (s : State) : Grows s s := ⟨fun _ h => h, fun _ => ⟨rfl, rfl⟩, List.prefix_rfl, le_rfl⟩

theorem raise_grows (e : ErrCond) (s : State) : Grows s (raise e s) where
  status := fun b h => by simp [h]
  firstErr := fun h => ⟨if_neg h, if_neg h⟩
  trace := List.prefix_append _ _
  drawn := le_rfl

/-- A whole command only adds to them, and leaves the waiting words alone. -/
theorem execute_grows {ws : List Word} {s t : State} (h : execute ws s = .next t) :
    Grows s t ∧ t.input = s.input := by
  rcases execute_cases h with ⟨e, rfl⟩ | ⟨hstatus, hcause, hcwp, -, -, hinput, hdrawn, l, htrace, -⟩
  · exact ⟨raise_grows e s, rfl⟩
  · exact ⟨⟨fun b hb => hstatus ▸ hb, fun _ => ⟨hcause, hcwp⟩, htrace ▸ List.prefix_append _ _, hdrawn⟩, hinput⟩

/-- A step only adds to them, and takes the host's words from the front. -/
theorem step_grows {s t : State} (h : step s = .next t) : Grows s t ∧ t.input <:+ s.input := by
  rcases step_cases h with ⟨rfl, -, -⟩ | ⟨-, rfl, -⟩ | ⟨words, rest, u, -, hrest, hu, rfl⟩
  · exact ⟨.refl _, List.suffix_rfl⟩
  · exact ⟨⟨fun _ hb => hb, fun _ => ⟨rfl, rfl⟩, List.prefix_rfl, le_rfl⟩, List.nil_suffix⟩
  · obtain ⟨⟨hstatus, hfirst, htrace, hdrawn⟩, hinput⟩ := execute_grows hu
    exact ⟨⟨hstatus, hfirst, htrace, hdrawn⟩, by rwa [retire_input, hinput]⟩

/-- Settles O25: `raise` only sets STATUS bits and keeps a recorded cause, and nothing else writes these registers. -/
theorem errorRegistersAreSticky : Obligations.ErrorRegistersAreSticky := by
  intro s t h
  obtain ⟨hgrows, -⟩ := step_grows h
  exact ⟨hgrows.status, hgrows.firstErr⟩

/-- Settles O53: an executed command appends its events, and the words it does not take are the last ones. -/
theorem traceOnlyGrows : Obligations.TraceOnlyGrows := by
  intro s t h
  obtain ⟨hgrows, hinput⟩ := step_grows h
  exact ⟨hgrows.trace, hinput, hgrows.drawn⟩

end Sys2Proof.Machine
end

section
/-!
PROOFS. The statements about a step on any words (R75, R76, R219, R236), that every command completes (R239), that each
register is written by its commands only (R21), and the invariants at reset and at any parameters (R37).
-/

namespace Sys2Proof.Machine

open Sys2Proof

/-! ### The step on the words of a command, whole or in part (R75, R76) -/

/-- The words of a well-formed command, in whichever split they arrive, run that command and retire it. -/
theorem fetchStepBy_encode {run : Instr → State → Result State} {i : Instr} {post rest : List Word} {s : State}
    (hi : i.WellFormed = true) (henc : encode i = s.pend ++ post) (hne : post ≠ []) (hin : s.input = post ++ rest) :
    fetchStepBy run s = retireOutcome (encode i).length (run i { s with pend := encode i, input := rest }) := by
  obtain ⟨h, ops, he, hlen, -⟩ := encode_eq_cons i
  have hd := decodeCommand_encode hi
  rw [he] at henc hd ⊢
  rw [fetchStepBy_command hne hin henc.symm hlen, executeBy_ok hd, hlen]

/-- Settles O15, for the commands of this hardware. -/
theorem stepRunsTheDecodedCommand : Obligations.StepRunsTheDecodedCommand := by
  rintro i _ post rest s hi henc hne rfl hin
  exact fetchStepBy_encode hi henc hne hin

/-- Settles O55, for the commands of any parameters, which complete while the frame is within the buffer. -/
theorem stepRunsTheDecodedCommandAtAnyParameters : Obligations.StepRunsTheDecodedCommandAtAnyParameters := by
  rintro p i _ post rest s hi henc hne rfl hin
  have hstep := fetchStepBy_encode (run := execWith p) hi henc hne hin
  refine ⟨hstep, fun hc => ?_⟩
  obtain ⟨t, ht⟩ := execWith_completes (s := { s with pend := encode i, input := rest }) i hc
  exact ⟨t.retire (encode i).length, by rw [stepWith, hstep, ht, retireOutcome]⟩

/-- With no word waiting inside a command the step is stuck (R236, log entry 4). -/
theorem step_stuck {s : State} (h : s.input = []) (hp : s.pend ≠ []) : step s = .fault .streamEndsInsideCommand := by
  rw [step, fetchStepBy, h]
  exact if_neg hp

/-- Settles O17: words short of a command only join PEND, and with no word waiting nothing executes. -/
theorem partOfACommandHasNoEffect : Obligations.PartOfACommandHasNoEffect := by
  refine ⟨fun h ops s hne heq hlen => ?_, fun s => step_idle, fun s => step_stuck⟩
  rw [step_short hne heq hlen, heq]

/-- Settles O52: EMIT alone reads the frame, and the frame is within the buffer. -/
theorem everyCommandCompletes : Obligations.EveryCommandCompletes := by
  intro i s hc
  rw [exec_eq_execWith]
  exact execWith_completes i hc

/-! ### The invariants at reset and at any parameters (R37) -/

theorem reset_drawInv (p : Params) : State.reset.DrawInv p where
  pos_range := (inRange_iff p _).2 ⟨le_rfl, Nat.cast_nonneg _, le_rfl, Nat.cast_nonneg _⟩
  count_le := Nat.zero_le _
  overflow_full := fun hne => absurd rfl hne
  fb_wf := reset_fb_wf _
  frame_written := fun i hi => absurd hi (Nat.not_lt_zero i)
  samples_range := fun _ he => absurd he List.not_mem_nil

theorem reset_commandInv (p : Params) : State.reset.CommandInv p :=
  ⟨reset_drawInv p, ⟨nofun, nofun⟩, ⟨iff_of_true rfl rfl, by decide, by decide, fun _ => rfl⟩⟩

/-- Settles O13: at reset the frame is empty, INIT_DONE is 0 and no error is recorded. -/
theorem resetMeetsInvariants : Obligations.ResetMeetsInvariants := State.inv_iff.2 ⟨reset_commandInv _, rfl⟩

/-- Settles O56: the step lemma of the invariants holds at every parameter R7 allows. -/
theorem stepKeepsInvariantsAtAnyParameters : Obligations.StepKeepsInvariantsAtAnyParameters :=
  fun _ _ _ => stepWith_keeps_inv

/-! ### Who writes which register (R21) -/

section Frames
variable {p : Params} {i : Instr} {s t : State}

/-- The commands that make no call: they raise one error, or change the beam and the frame only. -/
theorem execWith_drawing_cases (hinit : ∀ w v, i ≠ .init w v) (hemit : i ≠ .emit) (h : execWith p i s = .next t) :
    (∃ e, t = raise e s) ∨ SameButBeam s t := by
  cases i with
  | init w v => exact absurd rfl (hinit w v)
  | emit => exact absurd rfl hemit
  | seton c =>
    cases h
    rcases seton_cases p c s with ⟨-, hs⟩ | ⟨-, hs⟩ <;> rw [hs]
    · exact .inl ⟨_, rfl⟩
    · exact .inr (setOn_sameButBeam p c s)
  | setpos x y =>
    cases h
    rcases setpos_cases p x y s with ⟨-, hs⟩ | ⟨-, -, hs⟩ | ⟨-, -, hs⟩ <;> rw [hs]
    · exact .inl ⟨_, rfl⟩
    · exact .inl ⟨_, rfl⟩
    · exact .inr (setPosition_sameButBeam p _ s)
  | line x0 y0 x1 y1 c =>
    cases h
    rcases line_cases p x0 y0 x1 y1 c s with ⟨-, hs⟩ | ⟨-, hs⟩ | ⟨-, -, -, hs⟩ <;> rw [hs]
    · exact .inl ⟨_, rfl⟩
    · exact .inl ⟨_, rfl⟩
    · exact .inr (renderLine_sameButBeam p _ _ c s)

/-- CWP, PEND and the host's words are the step's (R75, R76). -/
theorem execWith_fetch (h : execWith p i s = .next t) : t.cwp = s.cwp ∧ t.pend = s.pend ∧ t.input = s.input := by
  rcases execWith_cases h with ⟨e, rfl⟩ | ⟨-, -, -, hcwp, hpend, hinput, -⟩
  · exact ⟨rfl, rfl, rfl⟩
  · exact ⟨hcwp, hpend, hinput⟩

/-- Only INIT configures (R180). -/
theorem execWith_config (hinit : ∀ w v, i ≠ .init w v) (h : execWith p i s = .next t) :
    t.sampleRate = s.sampleRate ∧ t.scale = s.scale ∧ t.initDone = s.initDone ∧ t.devCount = s.devCount := by
  by_cases hemit : i = .emit
  · subst hemit
    rcases emit_cases h with ⟨-, rfl⟩ | ⟨-, -, rfl⟩ | ⟨-, -, -, rfl⟩ <;> simp
  · rcases execWith_drawing_cases hinit hemit h with ⟨e, rfl⟩ | hbeam
    · exact ⟨rfl, rfl, rfl, rfl⟩
    · exact ⟨hbeam.sampleRate, hbeam.scale, hbeam.initDone, hbeam.devCount⟩

theorem init_pos (p : Params) (w v : Rat) (s : State) : (init p w v s).pos = s.pos := by
  rcases init_cases p w v s with ⟨-, hs⟩ | ⟨-, hs⟩ <;> rw [hs] <;> simp [State.pos]

theorem init_intensity (p : Params) (w v : Rat) (s : State) : (init p w v s).intensity = s.intensity := by
  rcases init_cases p w v s with ⟨-, hs⟩ | ⟨-, hs⟩ <;> rw [hs] <;> simp

/-- INIT keeps the frame (R184). -/
theorem init_frame (p : Params) (w v : Rat) (s : State) :
    (init p w v s).fbCount = s.fbCount ∧ (init p w v s).fbOverflow = s.fbOverflow ∧ (init p w v s).fb = s.fb := by
  rcases init_cases p w v s with ⟨-, hs⟩ | ⟨-, hs⟩ <;> rw [hs] <;> simp

/-- EMIT keeps the beam and the entries (R110, R112). -/
theorem emit_beam (h : emit p s = .next t) : t.pos = s.pos ∧ t.intensity = s.intensity ∧ t.fb = s.fb := by
  rcases emit_cases h with ⟨-, rfl⟩ | ⟨-, -, rfl⟩ | ⟨-, -, -, rfl⟩ <;> simp [State.pos]

/-- Only SETPOS and LINE move the beam. -/
theorem execWith_pos (hsetpos : ∀ x y, i ≠ .setpos x y) (hline : ∀ x0 y0 x1 y1 c, i ≠ .line x0 y0 x1 y1 c)
    (h : execWith p i s = .next t) : t.pos = s.pos := by
  cases i with
  | init w v =>
    cases h
    exact init_pos p w v s
  | seton c =>
    cases h
    rcases seton_cases p c s with ⟨-, hs⟩ | ⟨-, hs⟩ <;> rw [hs]
    · rfl
    · exact setOn_pos p c s
  | setpos x y => exact absurd rfl (hsetpos x y)
  | line x0 y0 x1 y1 c => exact absurd rfl (hline x0 y0 x1 y1 c)
  | emit => exact (emit_beam h).1

/-- Only SETON and LINE switch the beam. -/
theorem execWith_intensity (hseton : ∀ j, i ≠ .seton j) (hline : ∀ x0 y0 x1 y1 c, i ≠ .line x0 y0 x1 y1 c)
    (h : execWith p i s = .next t) : t.intensity = s.intensity := by
  cases i with
  | init w v =>
    cases h
    exact init_intensity p w v s
  | seton c => exact absurd rfl (hseton c)
  | setpos x y =>
    cases h
    rcases setpos_cases p x y s with ⟨-, hs⟩ | ⟨-, -, hs⟩ | ⟨-, -, hs⟩ <;> rw [hs]
    · rfl
    · rfl
    · exact setPosition_intensity p _ s
  | line x0 y0 x1 y1 c => exact absurd rfl (hline x0 y0 x1 y1 c)
  | emit =>
    obtain ⟨-, hi, -⟩ := emit_beam h
    exact hi

/-- Only INIT and EMIT draw answers and leave an event that is no ERROR (R210, R212). -/
theorem execWith_calls (hinit : ∀ w v, i ≠ .init w v) (hemit : i ≠ .emit) (h : execWith p i s = .next t) :
    t.script = s.script ∧ t.drawn = s.drawn ∧ ∀ ev ∈ newEvents s t, ev.isError = true := by
  rcases execWith_drawing_cases hinit hemit h with ⟨e, rfl⟩ | hbeam
  · rw [newEvents_of_trace (raise_trace e s)]
    exact ⟨rfl, rfl, fun ev hev => List.mem_singleton.1 hev ▸ rfl⟩
  · rw [newEvents_of_trace (hbeam.trace.trans (List.append_nil _).symm)]
    exact ⟨hbeam.script, hbeam.drawn, nofun⟩

end Frames

/-- Settles O51, register by register. -/
theorem registersAreWrittenByTheirCommandsOnly : Obligations.RegistersAreWrittenByTheirCommandsOnly := by
  intro i s t h
  rw [exec_eq_execWith] at h
  refine ⟨execWith_fetch h, fun hinit => execWith_config hinit h, fun hsetpos hline => ?pos,
    fun hseton hline => execWith_intensity hseton hline h, ?init, ?emit, fun hinit hemit => execWith_calls hinit hemit h⟩
  case pos =>
    injection execWith_pos hsetpos hline h with hx hy
    exact ⟨hx, hy⟩
  case init =>
    rintro ⟨w, v, rfl⟩
    cases h
    exact init_frame _ w v s
  case emit =>
    rintro rfl
    obtain ⟨-, -, hfb⟩ := emit_beam h
    exact hfb

end Sys2Proof.Machine
end

section
/-!
PROOFS. The statements of 42_beam.md about SETON and SETPOS (R130, R134 to R138), of 43_rasterizer.md about a continuous
line and the samples of one LINE (R160 to R165), and of 20_memory.md about the wire form at any parameters (R53).
-/

namespace Sys2Proof.Machine

open Sys2Proof

/-! ### SETON (R130, R135) -/

theorem seton_ready (p : Params) (i : BitVec 8) {s : State} (hi : s.initDone = true) :
    seton p i s = setOn p i s := by
  rw [seton, if_neg (by simp [hi])]

/-- On this hardware the dwell of a class change has four samples in both directions. -/
theorem setOn_appended_hw (i : BitVec 8) (s : State) :
    Appended Params.hw
      (if (i ≠ 0 ↔ s.intensity ≠ 0) then [] else List.replicate 4 (mkSample Params.hw s.pos i)) s
      (setOn Params.hw i s) := by
  have h := setOn_appended_of_intensity Params.hw i s
  rwa [show (if i ≠ 0 then Params.hw.cyclesToOn else Params.hw.cyclesToOff) = 4 from ite_self 4] at h

/-- setOn across the classes is the new intensity and its dwell; everything else is as before. -/
theorem setOn_switch_sameButFrame {p : Params} {i : BitVec 8} {s : State} (h : ¬ (i ≠ 0 ↔ s.intensity ≠ 0)) :
    SameButFrame { s with intensity := i } (setOn p i s) :=
  (setOn_sameButBeam p i s).sameButFrame (setOn_pos p i s) ((setOn_intensity p i s).trans (if_neg h))

/-- Settles O28: setOn's dwell, with each sample's fields written out. -/
theorem setonSwitchesTheBeam : Obligations.SetonSwitchesTheBeam := by
  intro i s hi hne
  refine ⟨_, congrArg Host.Outcome.next (seton_ready _ i hi), ?_, setOn_switch_sameButFrame hne⟩
  have h := setOn_appended_hw i s
  rwa [if_neg hne, mkSample_hw] at h

/-- Settles O29: setOn's test is that of the two classes. -/
theorem setonWithinAClassDoesNothing : Obligations.SetonWithinAClassDoesNothing := by
  intro i s hi hsame
  exact congrArg Host.Outcome.next ((seton_ready _ i hi).trans (setOn_same ((lit_eq_on_iff i s).2 hsame)))

/-! ### SETPOS (R134, R136) -/

theorem setpos_ready {p : Params} {x y : Rat} {s : State} (hi : s.initDone = true) (hr : inRange p ⟨x, y⟩ = true) :
    setpos p x y s = setPosition p ⟨x, y⟩ s := by
  rw [setpos, if_neg (by simp [hi]), if_neg (by simp [hr])]

theorem inRange_hw_iff (a : Point) : inRange Params.hw a = true ↔ 0 ≤ a.x ∧ a.x ≤ 4095 ∧ 0 ≤ a.y ∧ a.y ≤ 4095 :=
  inRange_iff Params.hw a

/-- On this hardware the sample of a point in range has the floors of its coordinates. -/
theorem mkSample_hw_of_inRange {a : Point} (h : inRange Params.hw a = true) (i : BitVec 8) :
    mkSample Params.hw a i = ⟨a.x.floor.toNat, a.y.floor.toNat, i⟩ := by
  obtain ⟨hx0, hx, hy0, hy⟩ := (inRange_iff _ a).1 h
  rw [mkSample, power_hw, ← coordField_of_range hx0 hx, ← coordField_of_range hy0 hy, Int.toNat_natCast,
    Int.toNat_natCast]

/-- A move's samples on this hardware, by the beam's class (R132, R134). -/
theorem setPosition_appended_hw (t : Point) (s : State) :
    Appended Params.hw
      (pathSamples Params.hw s.pos t (if s.intensity ≠ 0 then 5 else 10) s.intensity ++
        List.replicate (if s.intensity ≠ 0 then 2 else 1) (mkSample Params.hw t s.intensity))
      s (setPosition Params.hw t s) := by
  have h := setPosition_appended Params.hw t s
  rwa [travelSamples_eq, maxStep_on, settleCycles_on] at h

theorem setPosition_sameButPos (p : Params) (t : Point) (s : State) :
    SameButFrame { s with posX := t.x, posY := t.y } (setPosition p t s) := setPosition_sameButFrame p t s

/-- Settles O31: the samples of a move, with each sample's fields written out. -/
theorem setposMovesTheBeam : Obligations.SetposMovesTheBeam := by
  intro x y s hi hx0 hx hy0 hy
  have hr : inRange Params.hw ⟨x, y⟩ = true := (inRange_hw_iff _).2 ⟨hx0, hx, hy0, hy⟩
  refine ⟨_, congrArg Host.Outcome.next (setpos_ready hi hr), ?_, setPosition_sameButPos _ ⟨x, y⟩ s⟩
  rintro n rfl
  have h := setPosition_appended_hw ⟨x, y⟩ s
  rw [mkSample_hw_of_inRange hr] at h
  simp only [pathSamples, mkSample_hw] at h
  exact h

/-! ### The largest move (R138) -/

/-- A move between points in range is no longer than from corner to corner. -/
theorem sq_add_sq_le_corner {a b : Point} (ha : inRange Params.hw a = true) (hb : inRange Params.hw b = true) :
    (b.x - a.x) ^ 2 + (b.y - a.y) ^ 2 ≤ 4095 ^ 2 + 4095 ^ 2 := by
  obtain ⟨ax0, ax1, ay0, ay1⟩ := (inRange_hw_iff a).1 ha
  obtain ⟨bx0, bx1, by0, by1⟩ := (inRange_hw_iff b).1 hb
  exact add_le_add (sq_le_sq' (by linarith) (by linarith)) (sq_le_sq' (by linarith) (by linarith))

theorem steps_lit_le {a b : Point} (ha : inRange Params.hw a = true) (hb : inRange Params.hw b = true) :
    steps (b.x - a.x) (b.y - a.y) 5 ≤ 1159 :=
  steps_le ((sq_add_sq_le_corner ha hb).trans (by norm_num))

theorem steps_dark_le {a b : Point} (ha : inRange Params.hw a = true) (hb : inRange Params.hw b = true) :
    steps (b.x - a.x) (b.y - a.y) 10 ≤ 580 :=
  steps_le ((sq_add_sq_le_corner ha hb).trans (by norm_num))

/-- A step count is k + 1 where k + 1 steps are enough and k are not. -/
theorem steps_eq_succ {dx dy : Rat} {m k : Nat} (hm : 0 < m) (hle : dx ^ 2 + dy ^ 2 ≤ ((k + 1 : Nat) * m : Rat) ^ 2)
    (hlt : ((k : Rat) * m) ^ 2 < dx ^ 2 + dy ^ 2) : steps dx dy m = k + 1 :=
  le_antisymm (steps_le hle) (Nat.lt_of_not_le fun h => hlt.not_ge ((steps_le_iff hm).1 h))

/-- Settles O33: no move is longer than the diagonal, which 1159 steps of 5 cover and 1158 do not. -/
theorem largestMove : Obligations.LargestMove :=
  ⟨fun _ _ ha hb => ⟨steps_lit_le ha hb, steps_dark_le ha hb⟩,
    steps_eq_succ (k := 1158) (by decide) (by norm_num) (by norm_num),
    steps_eq_succ (k := 579) (by decide) (by norm_num) (by norm_num)⟩

/-! ### A continuous line (R160, R161, R164) -/

section Continuous
variable {p : Params} {p0 p1 : Point} {c : BitVec 8} {s : State}

/-- Where p0 is near the beam, no jump is made, and the colour is applied as RASTER_SETON_ALWAYS says (C2). -/
theorem renderLine_near (h : near p s.pos p0 = true) (ha : p.rasterSetonAlways = true) :
    renderLine p p0 p1 c s = setPosition p p1 (setOn p c s) := by
  simp [renderLine, h, ha]

/-- A continuous line's samples: the dwell of a class change, and then a move from the beam's position. -/
theorem renderLine_near_appended_hw (h : near Params.hw s.pos p0 = true) {i : BitVec 8}
    (hi : i = if (c ≠ 0 ↔ s.intensity ≠ 0) then s.intensity else c) :
    Appended Params.hw
      ((if (c ≠ 0 ↔ s.intensity ≠ 0) then [] else List.replicate 4 (mkSample Params.hw s.pos c)) ++
        pathSamples Params.hw s.pos p1 (if i ≠ 0 then 5 else 10) i ++
        List.replicate (if i ≠ 0 then 2 else 1) (mkSample Params.hw p1 i))
      s (renderLine Params.hw p0 p1 c s) := by
  have hint : (setOn Params.hw c s).intensity = i := (setOn_intensity _ c s).trans hi.symm
  have hmove := setPosition_appended_hw p1 (setOn Params.hw c s)
  rw [setOn_pos, hint] at hmove
  rw [renderLine_near h rfl, List.append_assoc]
  exact (setOn_appended_hw c s).trans hmove

theorem renderLine_near_sameButFrame (h : near p s.pos p0 = true) (ha : p.rasterSetonAlways = true) {i : BitVec 8}
    (hi : i = if (c ≠ 0 ↔ s.intensity ≠ 0) then s.intensity else c) :
    SameButFrame { s with posX := p1.x, posY := p1.y, intensity := i } (renderLine p p0 p1 c s) := by
  refine (renderLine_sameButBeam p p0 p1 c s).sameButFrame (renderLine_pos p p0 p1 c s) ?_
  rw [renderLine_near h ha, setPosition_intensity, setOn_intensity, hi]

end Continuous

theorem near_hw_iff (a b : Point) : near Params.hw a b = true ↔ dist2 a b ≤ 1 := by
  rw [near_iff, show ((Params.hw.contTol : Nat) : Rat) ^ 2 = 1 from one_pow 2]

/-- Settles O35: LINE in range with p0 within the tolerance is a class change and a move. -/
theorem continuousLine : Obligations.ContinuousLine := by
  rintro x0 y0 x1 y1 c i s _ _ hinit rfl rfl h0 h1 hnear hi
  have hn := (near_hw_iff s.pos _).2 hnear
  refine ⟨_, congrArg Host.Outcome.next (line_of_inRange hinit h0 h1), ?_, ?_⟩
  · exact renderLine_near_appended_hw hn hi
  · exact renderLine_near_sameButFrame hn rfl hi

/-- A move of no length has no interpolation sample. -/
theorem pathSamples_self (p : Params) (a : Point) {m : Nat} (hm : 0 < m) (i : BitVec 8) :
    pathSamples p a a m i = [] := by
  rw [pathSamples, (steps_eq_zero_iff hm).2 ⟨sub_self _, sub_self _⟩]
  rfl

/-- Settles O37: a continuous line to the beam's own position; where the class changes, the new intensity is the
colour, so both dwells repeat one sample. -/
theorem zeroLengthLine : Obligations.ZeroLengthLine := by
  intro x y c i s hinit hr hx hy hi
  have hp : scalePoint s.scale ⟨x, y⟩ = s.pos := by rw [scalePoint, hx, hy, State.pos]
  have hr' : inRange Params.hw (scalePoint s.scale ⟨x, y⟩) = true := hp ▸ hr
  have hn : near Params.hw s.pos s.pos = true := (near_hw_iff _ _).2 (by rw [dist2_self]; exact zero_le_one)
  have hline : exec (.line x y x y c) s = .next (renderLine Params.hw s.pos s.pos c s) := by
    rw [← hp]
    exact congrArg Host.Outcome.next (line_of_inRange hinit hr' hr')
  refine ⟨_, hline, ?_, renderLine_near_sameButFrame hn rfl hi⟩
  have happ := renderLine_near_appended_hw (p1 := s.pos) hn hi
  rw [pathSamples_self _ _ (by split <;> decide), List.append_nil] at happ
  by_cases hsame : (c ≠ 0 ↔ s.intensity ≠ 0)
  · rw [if_pos hsame, List.nil_append] at happ
    rwa [if_pos hsame, Nat.zero_add]
  · have hic : i = c := hi.trans (if_neg hsame)
    rw [if_neg hsame, hic] at happ
    rwa [if_neg hsame, hic, List.replicate_add]

/-! ### The samples of one LINE (R164) -/

/-- The samples kept and lost in the current frame. -/
def State.sampleCount (s : State) : Nat := s.fbCount + s.fbOverflow.toNat

/-- A sample appended is kept or lost, and past saturation neither. -/
theorem Appended.sampleCount_le {p : Params} {l : List Sample} {s t : State} (h : Appended p l s t) :
    t.sampleCount ≤ s.sampleCount + l.length := by
  have hcount := h.count
  have hover := h.overflow
  unfold State.sampleCount
  omega

theorem length_pathSamples (p : Params) (a t : Point) (m : Nat) (i : BitVec 8) :
    (pathSamples p a t m i).length = steps (t.x - a.x) (t.y - a.y) m := by simp [pathSamples]

section Counts
variable {s : State} {t : Point}

theorem setOn_sampleCount_le (i : BitVec 8) (s : State) :
    (setOn Params.hw i s).sampleCount ≤ s.sampleCount + 4 := by
  have h := (setOn_appended_hw i s).sampleCount_le
  split at h
  · exact h.trans (by simp)
  · exact h.trans (by rw [List.length_replicate])

theorem setPosition_sampleCount_dark_le (hs : inRange Params.hw s.pos = true) (ht : inRange Params.hw t = true)
    (hdark : s.intensity = 0) : (setPosition Params.hw t s).sampleCount ≤ s.sampleCount + 581 := by
  have h := (setPosition_appended_hw t s).sampleCount_le
  have hsteps := steps_dark_le hs ht
  simp only [hdark, ne_eq, not_true_eq_false, if_false, List.length_append, length_pathSamples,
    List.length_replicate] at h
  omega

theorem setPosition_sampleCount_le (hs : inRange Params.hw s.pos = true) (ht : inRange Params.hw t = true) :
    (setPosition Params.hw t s).sampleCount ≤ s.sampleCount + 1161 := by
  by_cases hdark : s.intensity = 0
  · exact (setPosition_sampleCount_dark_le hs ht hdark).trans (by omega)
  · have h := (setPosition_appended_hw t s).sampleCount_le
    have hsteps := steps_lit_le hs ht
    rw [if_pos hdark, if_pos hdark, List.length_append, length_pathSamples, List.length_replicate] at h
    omega

/-- The off dwell, the dark jump and its settle sample, the on dwell, the move and its settle dwell. -/
theorem renderLine_sampleCount_le {p0 p1 : Point} (c : BitVec 8) (hs : inRange Params.hw s.pos = true)
    (h0 : inRange Params.hw p0 = true) (h1 : inRange Params.hw p1 = true) :
    (renderLine Params.hw p0 p1 c s).sampleCount ≤ s.sampleCount + 1750 := by
  by_cases hnear : near Params.hw s.pos p0 = true
  · rw [renderLine_near hnear rfl]
    have hlight := setOn_sampleCount_le c s
    have hmove := setPosition_sampleCount_le (s := setOn Params.hw c s) (by rwa [setOn_pos]) h1
    omega
  · rw [renderLine_jump (Bool.eq_false_of_not_eq_true hnear)]
    have hblank := setOn_sampleCount_le 0 s
    have hjump : (blankJump Params.hw p0 s).sampleCount ≤ (setOn Params.hw 0 s).sampleCount + 581 :=
      setPosition_sampleCount_dark_le (by rwa [setOn_pos]) h0 (setOn_zero_intensity _ s)
    have hlight := setOn_sampleCount_le c (blankJump Params.hw p0 s)
    have hmove := setPosition_sampleCount_le (s := setOn Params.hw c (blankJump Params.hw p0 s))
      (by rwa [setOn_pos, blankJump_pos]) h1
    omega

end Counts

/-- Settles O36: 4 + 581 + 4 + 1161 samples at most, since the invariants keep the beam in range; an error
appends none. -/
theorem lineAppendsAtMost1750 : Obligations.LineAppendsAtMost1750 := by
  intro x0 y0 x1 y1 c s t hinv h
  cases h
  obtain ⟨⟨hdraw, -, -⟩, -⟩ := State.inv_iff.1 hinv
  change (line Params.hw x0 y0 x1 y1 c s).sampleCount ≤ s.sampleCount + 1750
  rcases line_cases Params.hw x0 y0 x1 y1 c s with ⟨-, hl⟩ | ⟨-, hl⟩ | ⟨-, h0, h1, hl⟩ <;> rw [hl]
  · exact Nat.le_add_right _ _
  · exact Nat.le_add_right _ _
  · exact renderLine_sampleCount_le c hdraw.pos_range h0 h1

/-! ### The wire form at any parameters (R53, R8, R54) -/

/-- Settles O58: the fields of the wire word at coordinate fields of `n` bits, and its bytes from its width. -/
theorem wireFormAtAnyParameters : Obligations.WireFormAtAnyParameters := fun _ s _ hn =>
  ⟨wireOf_width s hn, wireOf_x s hn, wireOf_y s hn, wireOf_ch0 s hn, wireOf_ch1 s hn, wireOf_ch2 s hn,
    by rw [length_wireBytes, wireOf_width s hn]⟩

end Sys2Proof.Machine
end

section
/-!
PROOFS. The statements of 44_init.md about INIT's effect (R180, R185), of 41_frame_buffer.md about EMIT's next state and
the frame it hands over (R106 to R113), and of 20_memory.md about EMIT twice (R58) and outside the buffer (R12, R50).
-/

namespace Sys2Proof.Machine

open Sys2Proof

/-! ### INIT (R180, R185) -/

section Init
variable {p : Params} {w v : Rat} {s : State}

theorem openDevice_present (h : p.deviceIndex < openAnswer s) : openDevice p s = queryInfo (callOpen s) := if_pos h

theorem openDevice_absent (h : ¬ p.deviceIndex < openAnswer s) :
    openDevice p s = emitEvent .diagNoDevice (callOpen s) := if_neg h

/-- Opening the device neither reads nor writes the rate and the factor. -/
theorem openDevice_setConfig (p : Params) (r : Word) (k : Rat) (s : State) :
    openDevice p { s with sampleRate := r, scale := k } = { openDevice p s with sampleRate := r, scale := k } := by
  by_cases h : p.deviceIndex < openAnswer s
  · rw [openDevice_present h, openDevice_present (s := { s with sampleRate := r, scale := k }) h]
    rfl
  · rw [openDevice_absent h, openDevice_absent (s := { s with sampleRate := r, scale := k }) h]
    rfl

/-- INIT that is not refused opens the device and writes the rate, the factor and INIT_DONE. -/
theorem init_accepted (h : max w v ≠ 0) : init p w v s =
    { openDevice p s with
      sampleRate := BitVec.ofNat 32 p.defaultSampleRate, scale := scaleFactor p w v, initDone := true } := by
  rcases init_cases p w v s with ⟨h0, -⟩ | ⟨-, hinit⟩
  · exact absurd h0 h
  · rw [hinit, openDevice_setConfig p (BitVec.ofNat 32 p.defaultSampleRate) (scaleFactor p w v) s]

end Init

theorem scaleFactor_hw (w v : Rat) : scaleFactor Params.hw w v = 4095 / max w v := by
  rw [scaleFactor, show ((Params.hw.maxCoord : Nat) : Rat) = 4095 from Nat.cast_ofNat]

/-- Settles O38: the device part of INIT, with a device and with none, and the registers it configures. -/
theorem initConfigures : Obligations.InitConfigures := by
  intro w v s hmax
  have hexec : exec (.init w v) s = .next (init Params.hw w v s) := rfl
  rw [hexec, init_accepted hmax, scaleFactor_hw]
  refine ⟨fun hdev => ?_, fun hnone => ?_⟩
  · rw [openDevice_present hdev]
    simp [queryInfo, callOpen, emitEvent, nameAnswer, usbAnswer, firmwareAnswer, Params.hw]
  · rw [openDevice_absent hnone.not_gt]
    simp [callOpen, emitEvent, hnone, Params.hw]

/-! ### The next state of an EMIT (R106 to R113) -/

section Emit
variable {p : Params} {s : State}

/-- The calls of an EMIT: the poll, and the hand-over where the sink is ready. -/
def handOver (p : Params) (l : List Sample) (s : State) : State :=
  if sinkReady p s then callWrite p l (pollSink p s) else pollSink p s

/-- Emission is the calls, then the warning, then both counters 0. -/
theorem emitFrame_eq (p : Params) (l : List Sample) (s : State) : emitFrame p l s =
    { handOver p l s with
      fbCount := 0, fbOverflow := 0, trace := (handOver p l s).trace ++ warnEvents s } := by
  have hover : (handOver p l s).fbOverflow = s.fbOverflow := by
    unfold handOver
    split <;> simp
  change { (if (handOver p l s).fbOverflow ≠ 0 then
    emitEvent (.warnOverrun (handOver p l s).fbOverflow) (handOver p l s) else handOver p l s) with
      fbCount := 0, fbOverflow := 0 } = _
  rw [hover, warnEvents]
  split
  · rfl
  · rw [List.append_nil]

theorem handOver_ready {l : List Sample} (hd : p.deviceIndex < s.devCount) (hr : statusAnswer s = .ready) :
    handOver p l s = callWrite p l (callStatus p s) := by
  rw [handOver, if_pos ((sinkReady_iff hd).2 hr), pollSink, if_pos (devicePresent_iff.2 hd)]

theorem handOver_busy {l : List Sample} (hd : p.deviceIndex < s.devCount) (hr : statusAnswer s = .busy) :
    handOver p l s = callStatus p s := by
  have hready : ¬ sinkReady p s = true := by rw [sinkReady_iff hd, hr]; nofun
  rw [handOver, if_neg hready, pollSink, if_pos (devicePresent_iff.2 hd)]

theorem handOver_noDevice {l : List Sample} (hd : ¬ p.deviceIndex < s.devCount) : handOver p l s = s := by
  have hp : ¬ devicePresent p s = true := fun h => hd (devicePresent_iff.1 h)
  have hready : ¬ sinkReady p s = true := fun h => hp (Bool.and_eq_true_iff.1 h).1
  rw [handOver, if_neg hready, pollSink, if_neg hp]

/-- The frame in wire form, entry by entry. -/
theorem frame_map_wireOf (p : Params) (s : State) :
    s.frame.map (wireOf p) = (List.range' 0 s.fbCount).map fun k => wireOf p (s.fb.read k) := List.map_map

end Emit

/-- Settles O41: the poll, the hand-over, the warning and the two counters, on a device that answers ready. -/
theorem emitToAReadySink : Obligations.EmitToAReadySink := by
  intro s hi h0 hc hd hr
  have hindex : Params.hw.deviceIndex = 0 := rfl
  refine (emit_frame (p := Params.hw) hi h0 hc).trans ?_
  rw [emitFrame_eq, handOver_ready hd hr]
  simp [callWrite, callStatus, emitEvent, writeAnswer, hr, hindex, frame_map_wireOf, warnEvents]

/-- Settles O42: the poll alone on a busy device, and no call on none. -/
theorem emitToABusySink : Obligations.EmitToABusySink := by
  intro s hi h0 hc
  have hemit : exec .emit s = _ := emit_frame (p := Params.hw) hi h0 hc
  rw [hemit, emitFrame_eq]
  refine ⟨fun hd hr => ?_, fun hnone => ?_⟩
  · have hindex : Params.hw.deviceIndex = 0 := rfl
    rw [handOver_busy hd hr]
    simp [callStatus, emitEvent, hr, hindex, warnEvents]
  · rw [handOver_noDevice (p := Params.hw) hnone.not_gt]
    rfl

/-- Settles O47: an EMIT that answers a next state leaves the frame empty. -/
theorem secondEmitDoesNothing : Obligations.SecondEmitDoesNothing := by
  intro s t hi h
  rcases emit_cases h with ⟨hn, -⟩ | ⟨-, h0, rfl⟩ | ⟨-, -, -, rfl⟩
  · simp [hi] at hn
  · exact h
  · exact emit_empty ((emitFrame_initDone _ _ s).trans hi) (emitFrame_fbCount _ _ s)

/-- Settles O48: MemRead has no answer for entries past the buffer's end. -/
theorem emitOutsideTheBufferStops : Obligations.EmitOutsideTheBufferStops := by
  intro s hi hc
  have hread : memRead Params.hw s.fb 0 s.fbCount = none := memRead_eq_none (by rwa [Nat.zero_add])
  have hexec : exec .emit s = emit Params.hw s := rfl
  rw [hexec, emit, if_neg (by simp [hi]), if_neg (by omega), hread]

/-! ### The frame that is handed over (R59, R106) -/

theorem get?_eq_some_read {m : Memory} {k : Nat} (h : (m.get? k).isSome = true) : m.get? k = some (m.read k) := by
  obtain ⟨smp, hs⟩ := Option.isSome_iff_exists.1 h
  rw [hs, read_of_get? hs]

theorem length_frame (s : State) : s.frame.length = s.fbCount := by simp [State.frame]

/-- Each sample of the frame is the entry of its index, which has been written. -/
theorem getElem?_frame {p : Params} {s : State} (h : s.DrawInv p) {k : Nat} (hk : k < s.fbCount) :
    s.frame[k]? = s.fb.get? k := by
  rw [get?_eq_some_read (h.frame_written k hk), State.frame, List.getElem?_map, List.getElem?_range' hk]
  simp

/-- A hand-over is of the current frame in wire form, with its count. -/
theorem callWrite_mem_emitFrame {p : Params} {s : State} {l : List Sample} {j : Nat} {rate : Word} {fl : WriteFlags}
    {ws : List WireSample} {n : Nat} {r : WriteResult}
    (h : Event.callWrite j rate fl ws n r ∈ newEvents s (emitFrame p l s)) : ws = l.map (wireOf p) ∧ n = s.fbCount := by
  rw [newEvents_emitFrame, List.mem_append, List.mem_append] at h
  rcases h with (hpoll | hwrite) | hwarn
  · rw [pollEvents] at hpoll
    split at hpoll <;> simp at hpoll
  · rw [writeEvents] at hwrite
    split at hwrite
    · cases List.mem_singleton.1 hwrite
      exact ⟨rfl, rfl⟩
    · cases hwrite
  · rw [warnEvents] at hwarn
    split at hwarn <;> simp at hwarn

/-- Settles O49: the only hand-over is of the current frame, whose entries the invariants say are written. -/
theorem emittedFramesWereWritten : Obligations.EmittedFramesWereWritten := by
  intro s t rate fl ws n r hinv h hev
  obtain ⟨⟨hdraw, -, -⟩, -⟩ := State.inv_iff.1 hinv
  rcases emit_cases h with ⟨-, rfl⟩ | ⟨-, -, rfl⟩ | ⟨-, -, -, rfl⟩
  · rw [newEvents_of_trace (raise_trace _ s)] at hev
    cases List.mem_singleton.1 hev
  · rw [newEvents_of_trace (List.append_nil _).symm] at hev
    cases hev
  · obtain ⟨rfl, rfl⟩ := callWrite_mem_emitFrame (l := s.frame) hev
    refine ⟨rfl, by rw [List.length_map, length_frame], fun k hk => ?_⟩
    rw [List.getElem?_map, getElem?_frame hdraw hk]

end Sys2Proof.Machine
end

section
/-!
PROOFS. The statement of 20_memory.md that stale frame-buffer entries are unobservable (R59): a relation between two
states that every operation keeps, and so every command.
-/

namespace Sys2Proof.Machine

open Sys2Proof

/-- The states differ only in frame-buffer entries at or past FB_COUNT. -/
def StaleVariant (s s' : State) : Prop :=
  ∃ m : Memory, s' = { s with fb := m } ∧ ∀ j, j < s.fbCount → m.get? j = s.fb.get? j

namespace StaleVariant
variable {p : Params} {s s' t t' : State}

/-- An operation that neither reads nor writes the buffer's entries, and does not lengthen the frame, keeps the
relation. -/
theorem map {f : State → State} (h : StaleVariant s s') (hf : ∀ m, f { s with fb := m } = { f s with fb := m })
    (hfb : (f s).fb = s.fb) (hc : (f s).fbCount ≤ s.fbCount) : StaleVariant (f s) (f s') := by
  obtain ⟨m, rfl, hm⟩ := h
  exact ⟨m, hf m, fun j hj => (hm j (hj.trans_le hc)).trans (by rw [hfb])⟩

theorem ite {c : Prop} [Decidable c] (h : StaleVariant s s') (h' : StaleVariant t t') :
    StaleVariant (if c then s else t) (if c then s' else t') := by
  split
  · exact h
  · exact h'

/-! ### Appending -/

/-- The sample appended stands at FB_COUNT in both buffers. -/
theorem append (h : StaleVariant s s') (smp : Sample) :
    StaleVariant (Machine.append p smp s) (Machine.append p smp s') := by
  obtain ⟨m, rfl, hm⟩ := h
  by_cases hroom : s.fbCount < p.fbCapacity
  · rw [append_room hroom, append_room (s := { s with fb := m }) hroom]
    refine ⟨m.write s.fbCount smp, rfl, fun j hj => ?_⟩
    change (m.write s.fbCount smp).get? j = (s.fb.write s.fbCount smp).get? j
    rcases Nat.lt_succ_iff_lt_or_eq.1 hj with hlt | rfl
    · rw [get?_write_other _ _ hlt.ne, get?_write_other _ _ hlt.ne, hm j hlt]
    · rw [get?_write_same, get?_write_same]
  · by_cases hlost : s.fbOverflow < 0xFFFFFFFF
    · rw [append_full hroom hlost, append_full (s := { s with fb := m }) hroom hlost]
      exact ⟨m, rfl, hm⟩
    · rw [append_saturated hroom hlost, append_saturated (s := { s with fb := m }) hroom hlost]
      exact ⟨m, rfl, hm⟩

theorem appendAll (h : StaleVariant s s') (l : List Sample) :
    StaleVariant (Machine.appendAll p l s) (Machine.appendAll p l s') := by
  induction l generalizing s s' with
  | nil => exact h
  | cons smp l ih => exact ih (h.append smp)

/-! ### The beam's operations: their samples do not depend on the buffer -/

theorem setOn (h : StaleVariant s s') (i : BitVec 8) :
    StaleVariant (Machine.setOn p i s) (Machine.setOn p i s') := by
  have happ : StaleVariant { s with intensity := i } { s' with intensity := i } :=
    h.map (f := fun s => { s with intensity := i }) (fun _ => rfl) rfl le_rfl
  obtain ⟨m, rfl, -⟩ := id h
  exact ite h (happ.appendAll _)

theorem setPosition (h : StaleVariant s s') (a : Point) :
    StaleVariant (Machine.setPosition p a s) (Machine.setPosition p a s') := by
  have hpos : StaleVariant (s.setPos a) (s'.setPos a) := h.map (fun _ => rfl) rfl le_rfl
  rw [setPosition_eq, setPosition_eq]
  obtain ⟨m, rfl, -⟩ := h
  exact hpos.appendAll _

theorem renderLine (h : StaleVariant s s') (p0 p1 : Point) (c : BitVec 8) :
    StaleVariant (Machine.renderLine p p0 p1 c s) (Machine.renderLine p p0 p1 c s') := by
  have hjump : StaleVariant (blankJump p p0 s) (blankJump p p0 s') := (h.setOn 0).setPosition p0
  obtain ⟨m, rfl, -⟩ := id h
  have hstart := ite (c := (!near p s.pos p0) = true) hjump h
  exact (ite (hstart.setOn c) hstart).setPosition p1

/-! ### Errors, INIT's calls and EMIT's -/

theorem raise (h : StaleVariant s s') (e : ErrCond) : StaleVariant (Machine.raise e s) (Machine.raise e s') :=
  h.map (fun _ => rfl) rfl le_rfl

theorem openDevice (h : StaleVariant s s') : StaleVariant (Machine.openDevice p s) (Machine.openDevice p s') := by
  refine h.map (fun m => ?_) (openDevice_fb p s) (openDevice_fbCount p s).le
  by_cases hd : p.deviceIndex < openAnswer s
  · rw [openDevice_present hd, openDevice_present (s := { s with fb := m }) hd]
    rfl
  · rw [openDevice_absent hd, openDevice_absent (s := { s with fb := m }) hd]
    rfl

theorem init (h : StaleVariant s s') (w v : Rat) : StaleVariant (Machine.init p w v s) (Machine.init p w v s') := by
  by_cases hmax : max w v = 0
  · have hrefused : ∀ u, Machine.init p w v u = Machine.raise .param u := fun _ => if_pos hmax
    rw [hrefused, hrefused]
    exact h.raise .param
  · rw [init_accepted hmax, init_accepted hmax]
    exact (h.openDevice (p := p)).map (f := fun u => { u with
      sampleRate := BitVec.ofNat 32 p.defaultSampleRate, scale := scaleFactor p w v, initDone := true })
      (fun _ => rfl) rfl le_rfl

/-- The current frame is the same in both states. -/
theorem frame_eq (h : StaleVariant s s') : s'.frame = s.frame := by
  obtain ⟨m, rfl, hm⟩ := h
  refine List.map_congr_left fun k hk => ?_
  obtain ⟨-, hk⟩ := List.mem_range'_1.1 hk
  rw [Memory.read, Memory.read, hm k (by simpa using hk)]

/-- EMIT's calls read no entry but those of the frame they are given. -/
theorem handOver (h : StaleVariant s s') (l : List Sample) :
    StaleVariant (Machine.handOver p l s) (Machine.handOver p l s') := by
  by_cases hd : p.deviceIndex < s.devCount
  · have hpoll : StaleVariant (callStatus p s) (callStatus p s') := h.map (fun _ => rfl) rfl le_rfl
    have hwrite : StaleVariant (callWrite p l (callStatus p s)) (callWrite p l (callStatus p s')) :=
      hpoll.map (fun _ => rfl) rfl le_rfl
    obtain ⟨m, rfl, -⟩ := h
    cases hr : statusAnswer s with
    | ready => rwa [handOver_ready hd hr, handOver_ready (s := { s with fb := m }) hd hr]
    | busy => rwa [handOver_busy hd hr, handOver_busy (s := { s with fb := m }) hd hr]
  · obtain ⟨m, rfl, hm⟩ := h
    rw [handOver_noDevice hd, handOver_noDevice (s := { s with fb := m }) hd]
    exact ⟨m, rfl, hm⟩

theorem emitFrame (h : StaleVariant s s') (l : List Sample) :
    StaleVariant (Machine.emitFrame p l s) (Machine.emitFrame p l s') := by
  have hcalls := h.handOver (p := p) l
  rw [emitFrame_eq, emitFrame_eq]
  obtain ⟨m, rfl, -⟩ := id h
  exact hcalls.map (f := fun u => { u with fbCount := 0, fbOverflow := 0, trace := u.trace ++ warnEvents s })
    (fun _ => rfl) rfl (Nat.zero_le _)

/-! ### The commands -/

/-- EMIT stops or completes alike in both states. -/
theorem emit (h : StaleVariant s s') (ht : Machine.emit p s = .next t) :
    ∃ t', Machine.emit p s' = .next t' ∧ StaleVariant t t' := by
  have hframe := h.frame_eq
  obtain ⟨m, rfl, -⟩ := id h
  rcases emit_cases ht with ⟨hi, rfl⟩ | ⟨hi, h0, rfl⟩ | ⟨hi, h0, hc, rfl⟩
  · exact ⟨_, if_pos hi, h.raise .notInit⟩
  · exact ⟨_, emit_empty hi h0, h⟩
  · exact ⟨_, emit_frame (s := { s with fb := m }) hi h0 hc, hframe ▸ h.emitFrame s.frame⟩

/-- Every command takes such states to such states. -/
theorem execWith {i : Instr} (h : StaleVariant s s') (ht : Machine.execWith p i s = .next t) :
    ∃ t', Machine.execWith p i s' = .next t' ∧ StaleVariant t t' := by
  cases i with
  | init w v =>
    cases ht
    exact ⟨_, rfl, h.init w v⟩
  | seton c =>
    cases ht
    obtain ⟨m, rfl, -⟩ := id h
    exact ⟨_, rfl, ite (h.raise .notInit) (h.setOn c)⟩
  | setpos x y =>
    cases ht
    obtain ⟨m, rfl, -⟩ := id h
    exact ⟨_, rfl, ite (h.raise .notInit) (ite (h.raise .range) (h.setPosition ⟨x, y⟩))⟩
  | line x0 y0 x1 y1 c =>
    cases ht
    obtain ⟨m, rfl, -⟩ := id h
    exact ⟨_, rfl, ite (h.raise .notInit) (ite (h.raise .range) (h.renderLine _ _ c))⟩
  | emit => exact h.emit ht

end StaleVariant

/-- Settles O50: the two states of the statement are related, and so are the two they run to. -/
theorem staleEntriesAreUnobservable : Obligations.StaleEntriesAreUnobservable := by
  intro i s t m hm ht
  rw [exec_eq_execWith] at ht ⊢
  have hvariant : StaleVariant s { s with fb := m } := ⟨m, rfl, hm⟩
  obtain ⟨_, ht', m', rfl, hm'⟩ := hvariant.execWith ht
  exact ⟨m', ht', hm'⟩

end Sys2Proof.Machine
end
